-- ==== Sys2Proof/Word.lean ====
section
/-! DEFINITION. The data word of the engine: 32 bits, unsigned (R4, R6). -/

namespace Sys2Proof

/-- A word: an unsigned 32-bit value; bit 0 is the least significant (R6). -/
abbrev Word := BitVec 32

/-- A host address: an 8-bit word address (R52). -/
abbrev Addr := BitVec 8

end Sys2Proof
end

