-- ==== Sys2Proof/Config.lean ====
section
/-! DEFINITION. The values the spec leaves open, as constants without a body.
Nothing in Lean can evaluate one, so a statement that holds, holds for every value.
The round-constant table `K_TABLE` is no open value (R33 requires its contents); it stands in
Machine/RoundConstants.lean. -/

namespace Sys2Proof

/-- `RESET_DATA` (R172): the word that a reset leaves in a data location, a draw under no law: nothing
relates the words of two engines, of two resets or of two locations.
First argument: which engine (R160), its number among `N_ENGINES`.
Second argument: which reset of that engine (the field `resets` of State counts them).
Third argument: the location, 0 to 7 for S[0..7] and 8 + i for M[i].
That the draw is a function of these three is the model's choice (log entry 3). -/
opaque Config.resetData : Nat → Nat → Nat → Word

/-- What an engine read of K at an index above 63 would give.
R62 says that no such read occurs, so no run shows it; log entry 8. -/
opaque Config.beyondK : Nat → Word

/-- What an engine read of M at an index above 63 would give.
R62 says that no such read occurs, so no run shows it; log entry 8. -/
opaque Config.beyondM : Nat → Word

end Sys2Proof
end

