-- ==== Sys2Proof/Syntax.lean ====
section
/-! DEFINITION. The instructions: the two host transactions (format T) and the five commands
(format C), R80 to R86, one constructor per row of spec/opcode_table.json.
A bit that the hardware ignores is kept as a field of its constructor, so that no bit of an
encoding is lost (log entry 14). -/

namespace Sys2Proof

/-- The instructions of R84. -/
inductive Instr where
  /-- `RD addr`: host read of one word (R54). `unused` is the data field, ignored by the engine (R80). -/
  | rd (addr : Addr) (unused : Word)
  /-- `WR addr, data`: host write of one word (R55). -/
  | wr (addr : Addr) (data : Word)
  /-- `COMPRESS_1X` (R122). `reserved` is bits 31:3 of the command word, ignored (R85). -/
  | compress1x (reserved : BitVec 29)
  /-- `COMPRESS_2X` (R123). `reserved` as above. -/
  | compress2x (reserved : BitVec 29)
  /-- `COMPRESS_4X` (R124). `reserved` as above. -/
  | compress4x (reserved : BitVec 29)
  /-- `COMPRESS_8X` (R125). `reserved` as above. -/
  | compress8x (reserved : BitVec 29)
  /-- `NOP` (R126). `unused` is bits 31:1 of the command word, ignored (R85). -/
  | nop (unused : BitVec 31)
  deriving DecidableEq, Repr

/-- A word of one of the two formats of R80. -/
inductive EncodedWord where
  /-- A format T word, 41 bits: one host transaction. -/
  | formatT (word : BitVec 41)
  /-- A format C word, 32 bits: the data word of a write to CTRL. -/
  | formatC (word : BitVec 32)
  deriving DecidableEq, Repr

/-- A transaction as the host presents it on the port: the signals `req_we`, `req_addr`,
`req_wdata` (R50). -/
structure Request where
  we    : Bool
  addr  : Addr
  wdata : Word
  deriving DecidableEq, Repr

/-- A row of the opcode map of R84: a word w selects it when w AND mask = value. -/
structure OpcodeRow (w : Nat) where
  mnemonic : String
  value    : BitVec w
  mask     : BitVec w
  deriving DecidableEq, Repr

/-- Why a number is not a word of either format. -/
inductive DecodeError where
  /-- The number of bits is that of neither format (R80: 41 and 32 bits). -/
  | noFormatOfThisWidth
  /-- A bit above the format's own is set (R80: bits 43:41 are not part of format T). -/
  | bitsBeyondTheFormat
  deriving DecidableEq, Repr

end Sys2Proof
end

