-- ==== Sys2Proof/WellFormed.lean ====
section
/-! DEFINITION. Well-formed instructions.
Every word of either format decodes and none is illegal (R81, R82, R85), and the field widths are
in the types, so no check is needed for an instruction to have an encoding.
What is checked is the form R84 and R87 write an instruction in: every ignored bit 0.
Neither the decoder nor the machine asks for it: the hardware ignores those bits. -/

namespace Sys2Proof

/-- The canonical form of R84 (`with the ignored bits zero`): the form a listing line has. -/
def Instr.wellFormed : Instr → Bool
  | .rd _ unused         => unused == 0
  | .wr _ _              => true
  | .compress1x reserved => reserved == 0
  | .compress2x reserved => reserved == 0
  | .compress4x reserved => reserved == 0
  | .compress8x reserved => reserved == 0
  | .nop unused          => unused == 0

end Sys2Proof
end

