-- ==== Sys2Proof/Decode.lean ====
section
/-! DEFINITION. The decoder (R81, R82), total on the words of both formats, and the encoder, written
from the same layouts (R80) and the same opcode map (R84). -/

namespace Sys2Proof

/-! ## The fields of the two formats (R80) -/

/-- Bit 40 of a format T word: 1 = WR, 0 = RD. -/
def fieldWe (t : BitVec 41) : Bool := t.getLsbD 40

/-- Bits 39:32 of a format T word. -/
def fieldAddr (t : BitVec 41) : Addr := t.extractLsb' 32 8

/-- Bits 31:0 of a format T word. -/
def fieldWdata (t : BitVec 41) : Word := t.extractLsb' 0 32

/-- Bit 0 of a command word: START (R34, R80). -/
def fieldStart (v : Word) : Bool := v.getLsbD 0

/-- Bits 2:1 of a command word: UNROLL_SEL (R34, R80). -/
def fieldUnrollSel (v : Word) : BitVec 2 := v.extractLsb' 1 2

/-- Bits 31:3 of a command word: reserved (R34, R80). -/
def fieldReserved (v : Word) : BitVec 29 := v.extractLsb' 3 29

/-- The word address of CTRL (R34, R56). -/
def ctrlAddr : Addr := 0x08

/-- The word address of STATUS (R35, R56). -/
def statusAddr : Addr := 0x09

/-! ## Decoding -/

/-- A format C word, R82: `Command(v)` as an instruction. Bits 31:3 take no part in the choice. -/
def decodeC (v : Word) : Instr :=
  if fieldStart v then
    if fieldUnrollSel v = 0b00 then .compress1x (fieldReserved v)
    else if fieldUnrollSel v = 0b01 then .compress2x (fieldReserved v)
    else if fieldUnrollSel v = 0b10 then .compress4x (fieldReserved v)
    else .compress8x (fieldReserved v)
  else .nop (v.extractLsb' 1 31)

/-- A format T word, R81. -/
def decodeT (t : BitVec 41) : Instr :=
  if fieldWe t then .wr (fieldAddr t) (fieldWdata t) else .rd (fieldAddr t) (fieldWdata t)

/-- A word of either format. -/
def decodeWord : EncodedWord → Instr
  | .formatT t => decodeT t
  | .formatC v => decodeC v

/-- A format T word as the port's three signals. -/
def Request.ofWord (t : BitVec 41) : Request :=
  { we := fieldWe t, addr := fieldAddr t, wdata := fieldWdata t }

/-- The port's three signals packed into a format T word (R80). -/
def Request.toWord (r : Request) : BitVec 41 :=
  (BitVec.ofBool r.we ++ r.addr ++ r.wdata).setWidth 41

/-- The instruction that a presented transaction is: R81 to its end, so that a write to CTRL is the
command its data word decodes to. -/
def decodeRequest (r : Request) : Instr :=
  match decodeT r.toWord with
  | .wr addr data => if addr = ctrlAddr then decodeC data else .wr addr data
  | other => other

/-- A number of `nbits` bits as a word of a format, or the reason why it is none.
A format T word may come in whole bytes (48 bits), its bits above 40 zero. -/
def wordOfBits (nbits w : Nat) : Except DecodeError EncodedWord :=
  if nbits = 32 then
    if w < 2 ^ 32 then .ok (.formatC (BitVec.ofNat 32 w)) else .error .bitsBeyondTheFormat
  else if nbits = 41 ∨ nbits = 48 then
    if w < 2 ^ 41 then .ok (.formatT (BitVec.ofNat 41 w)) else .error .bitsBeyondTheFormat
  else .error .noFormatOfThisWidth

/-- The decoder on numbers: the instruction, or a rejection by name. -/
def decodeBits (nbits w : Nat) : Except DecodeError Instr :=
  match wordOfBits nbits w with
  | .ok word => .ok (decodeWord word)
  | .error e => .error e

/-- The decoder on a word of the opcode table, bit 0 least significant. -/
def decodeTableWord (nbits w : Nat) : Option Instr :=
  match decodeBits nbits w with
  | .ok i => some i
  | .error _ => none

/-! ## Encoding -/

/-- A command word from its fields (R80). -/
def commandWord (reserved : BitVec 29) (sel : BitVec 2) (start : Bool) : Word :=
  (reserved ++ sel ++ BitVec.ofBool start).setWidth 32

/-- The word of an instruction (R80, R84). -/
def encode : Instr → EncodedWord
  | .rd addr unused      => .formatT (Request.toWord { we := false, addr := addr, wdata := unused })
  | .wr addr data        => .formatT (Request.toWord { we := true, addr := addr, wdata := data })
  | .compress1x reserved => .formatC (commandWord reserved 0b00 true)
  | .compress2x reserved => .formatC (commandWord reserved 0b01 true)
  | .compress4x reserved => .formatC (commandWord reserved 0b10 true)
  | .compress8x reserved => .formatC (commandWord reserved 0b11 true)
  | .nop unused          => .formatC ((unused ++ BitVec.ofBool false).setWidth 32)

/-- The transaction that carries a word: a format T word is one; a format C word is the data word
of a write to CTRL (R80). -/
def EncodedWord.toRequest : EncodedWord → Request
  | .formatT t => Request.ofWord t
  | .formatC v => { we := true, addr := ctrlAddr, wdata := v }

/-! ## The opcode map of R84 -/

/-- The rows of format T. -/
def opcodeRowsT : List (OpcodeRow 41) :=
  [ { mnemonic := "RD", value := 0x00000000000, mask := 0x10000000000 },
    { mnemonic := "WR", value := 0x10000000000, mask := 0x10000000000 } ]

/-- The rows of format C. -/
def opcodeRowsC : List (OpcodeRow 32) :=
  [ { mnemonic := "COMPRESS_1X", value := 0x00000001, mask := 0x00000007 },
    { mnemonic := "COMPRESS_2X", value := 0x00000003, mask := 0x00000007 },
    { mnemonic := "COMPRESS_4X", value := 0x00000005, mask := 0x00000007 },
    { mnemonic := "COMPRESS_8X", value := 0x00000007, mask := 0x00000007 },
    { mnemonic := "NOP", value := 0x00000000, mask := 0x00000001 } ]

/-- A word selects a row when its masked bits are the row's value (R84). -/
def OpcodeRow.selects {w : Nat} (row : OpcodeRow w) (word : BitVec w) : Bool :=
  word &&& row.mask == row.value

/-- The mnemonic of an instruction, as the opcode table spells it. -/
def Instr.mnemonic : Instr → String
  | .rd _ _       => "RD"
  | .wr _ _       => "WR"
  | .compress1x _ => "COMPRESS_1X"
  | .compress2x _ => "COMPRESS_2X"
  | .compress4x _ => "COMPRESS_4X"
  | .compress8x _ => "COMPRESS_8X"
  | .nop _        => "NOP"

end Sys2Proof
end

