-- ==== Sys2Proof/Machine/State.lean ====
section
/-! DEFINITION. The state of one engine instance and of what drives its port: plain data.
The engine's own state is the table of spec/10_state.md section 1: S, M, IDX, UF, BUSY, DONE.
The host agent of R53 is held beside it: the transactions still to be presented, the level of
`rst_n` in the coming cycles, and the read log of R87 (log entry 4). -/

namespace Sys2Proof.Machine

/-- The eight working registers (R20): S[0] = a, ..., S[7] = h. -/
@[ext]
structure HashState where
  a : Word
  b : Word
  c : Word
  d : Word
  e : Word
  f : Word
  g : Word
  h : Word
  deriving DecidableEq, Repr

/-- The schedule memory M: exactly 64 words of 32 bits (R30). -/
abbrev Schedule := Vector Word 64

/-- What the host does on the port, in order. -/
inductive HostAction where
  /-- Present a transaction and keep it presented until it is accepted (R51). -/
  | present (r : Request)
  /-- `POLL` (R87): `RD STATUS` again and again until the value read has BUSY = 0. -/
  | poll
  /-- Present nothing for one clock cycle: `req_valid` = 0. -/
  | idle
  deriving DecidableEq, Repr

/-- Why the machine stops with a fault: never. R150: the set of exception causes is empty, and a
model must not add one, so this type has no constructor (log entry 16). -/
inductive Fault where
  deriving DecidableEq, Repr

/-- Why an instruction is refused. -/
inductive Refusal where
  /-- Raised by an arm of exec that has no meaning yet; no arm of this model raises it (safe). -/
  | notModelled (mnemonic : String)
  deriving DecidableEq, Repr

/-- The state of one engine instance with its host. -/
@[ext]
structure State where
  /-- The working registers a to h (R20). -/
  S       : HashState
  /-- The schedule memory (R30). -/
  M       : Schedule
  /-- The round index, 7 bits, 0 to 64 (R24). -/
  IDX     : BitVec 7
  /-- The latched unroll select (R26). -/
  UF      : BitVec 2
  /-- A compress is running (R27). -/
  BUSY    : Bool
  /-- A compress has completed since reset and none is running (R28). -/
  DONE    : Bool
  /-- The host's coming actions, the one on the port first (R51, R80: a program). -/
  program : List HostAction
  /-- The level of `rst_n` at the coming rising edges of `clk`, 1 at every edge beyond the list (R170). -/
  rstN    : List Bool
  /-- The values returned on `rsp_rdata` by the reads accepted so far, oldest first (R54, R87). -/
  readLog : List Word
  /-- The model's own: how many resets the run has seen, which selects the draw of R172. -/
  resets  : Nat
  deriving DecidableEq, Repr

/-- The machine after a reset that left `regs` in S and `sched` in M (R38).
R38 and R172 do not specify those words: a claim about reset holds for all of them. -/
def State.resetWith (regs : HashState) (sched : Schedule) : State where
  S := regs
  M := sched
  IDX := 0
  UF := 0
  BUSY := false
  DONE := false
  program := []
  rstN := []
  readLog := []
  resets := 0

/-- The working registers with every word zero. -/
def HashState.zero : HashState := ⟨0, 0, 0, 0, 0, 0, 0, 0⟩

/-- The machine right after reset. The control fields are R38's; the words of S and M, which R172
leaves unspecified, are zero here by DESIGN CHOICE, unsafe (log entry 2). -/
def State.reset : State := State.resetWith HashState.zero (Vector.replicate 64 0)

end Sys2Proof.Machine
end

