-- ==== Sys2Proof/Machine/Operands.lean ====
section
/-! DEFINITION. Operand forms: the address map (R56), the working registers by index (R20), and the
unroll factor (R83). -/

namespace Sys2Proof.Machine

/-- What a word address names (R56). -/
inductive Target where
  | stateWord (i : Fin 8)
  | ctrl
  | status
  | sched (i : Fin 64)
  | ktab (i : Fin 64)
  | reserved
  deriving DecidableEq, Repr

/-- The address map of R56, row by row. -/
def target (addr : Addr) : Target :=
  if h : addr.toNat < 0x08 then .stateWord ⟨addr.toNat, h⟩
  else if addr = ctrlAddr then .ctrl
  else if addr = statusAddr then .status
  else if addr.toNat < 0x40 then .reserved
  else if addr.toNat < 0x80 then .sched (Fin.ofNat 64 (addr.toNat - 0x40))
  else if addr.toNat < 0xC0 then .ktab (Fin.ofNat 64 (addr.toNat - 0x80))
  else .reserved

/-- S[i]: the register of that index (R20). -/
def HashState.get (s : HashState) : Fin 8 → Word
  | 0 => s.a
  | 1 => s.b
  | 2 => s.c
  | 3 => s.d
  | 4 => s.e
  | 5 => s.f
  | 6 => s.g
  | 7 => s.h

/-- S[i] <- v (R20). -/
def HashState.set (s : HashState) (i : Fin 8) (v : Word) : HashState :=
  match i with
  | 0 => { s with a := v }
  | 1 => { s with b := v }
  | 2 => { s with c := v }
  | 3 => { s with d := v }
  | 4 => { s with e := v }
  | 5 => { s with f := v }
  | 6 => { s with g := v }
  | 7 => { s with h := v }

/-- The unroll factor of a select: U = 1 << UNROLL_SEL (R83). -/
def unrollFactor (sel : BitVec 2) : Nat := 1 <<< sel.toNat

end Sys2Proof.Machine
end

