-- ==== Sys2Proof/Machine/RoundConstants.lean ====
section
/-! DEFINITION. The round-constant table K (R32, R33): configuration, not state.
It stands under Machine/ and not in Config.lean so that a wrong entry could be mended. -/

namespace Sys2Proof.Machine

/-- The table of R33, row by row as the rule prints it: row r is K[4r], K[4r+1], K[4r+2], K[4r+3]. -/
def kRows : Vector (Vector Word 4) 16 :=
  #v[#v[0x428a2f98, 0x71374491, 0xb5c0fbcf, 0xe9b5dba5],
     #v[0x3956c25b, 0x59f111f1, 0x923f82a4, 0xab1c5ed5],
     #v[0xd807aa98, 0x12835b01, 0x243185be, 0x550c7dc3],
     #v[0x72be5d74, 0x80deb1fe, 0x9bdc06a7, 0xc19bf174],
     #v[0xe49b69c1, 0xefbe4786, 0x0fc19dc6, 0x240ca1cc],
     #v[0x2de92c6f, 0x4a7484aa, 0x5cb0a9dc, 0x76f988da],
     #v[0x983e5152, 0xa831c66d, 0xb00327c8, 0xbf597fc7],
     #v[0xc6e00bf3, 0xd5a79147, 0x06ca6351, 0x14292967],
     #v[0x27b70a85, 0x2e1b2138, 0x4d2c6dfc, 0x53380d13],
     #v[0x650a7354, 0x766a0abb, 0x81c2c92e, 0x92722c85],
     #v[0xa2bfe8a1, 0xa81a664b, 0xc24b8b70, 0xc76c51a3],
     #v[0xd192e819, 0xd6990624, 0xf40e3585, 0x106aa070],
     #v[0x19a4c116, 0x1e376c08, 0x2748774c, 0x34b0bcb5],
     #v[0x391c0cb3, 0x4ed8aa4a, 0x5b9cca4f, 0x682e6ff3],
     #v[0x748f82ee, 0x78a5636f, 0x84c87814, 0x8cc70208],
     #v[0x90befffa, 0xa4506ceb, 0xbef9a3f7, 0xc67178f2]]

/-- `K_TABLE`: the 64 round constants of R33, "Index i = 4 * row + column". -/
def kTable : Vector Word 64 :=
  Vector.ofFn fun i => (kRows.get ⟨i.val / 4, Nat.div_lt_of_lt_mul i.isLt⟩)[i.val % 4]

/-- The engine's read of K[i] (R62). No index above 63 occurs (R39, R62); log entry 8. -/
def kWord (i : Nat) : Word := if h : i < 64 then kTable[i] else Config.beyondK i

/-- The engine's read of M[i] (R31, R62). No index above 63 occurs (R39, R62); log entry 8. -/
def mWord (m : Schedule) (i : Nat) : Word := if h : i < 64 then m[i] else Config.beyondM i

end Sys2Proof.Machine
end

