-- ==== Sys2Proof/Machine/Round.lean ====
section
/-! DEFINITION. The round function and its helpers (spec/40_round_function.md), and the transform at
the operation level (R120). All addition is modulo 2^32 (R7, R111). -/

namespace Sys2Proof.Machine

/-- ROTR(x, n), 0 < n < 32: right rotation (R7; the expansion into shifts is log entry 11). -/
def rotr (x : Word) (n : Nat) : Word := (x >>> n) ||| (x <<< (32 - n))

/-- CH, bitwise choice (R101). -/
def ch (x y z : Word) : Word := (x &&& y) ^^^ (~~~x &&& z)

/-- MAJ, bitwise majority (R102). -/
def maj (x y z : Word) : Word := (x &&& y) ^^^ (x &&& z) ^^^ (y &&& z)

/-- EP0, the large sigma-0 mix (R103). -/
def ep0 (x : Word) : Word := rotr x 2 ^^^ rotr x 13 ^^^ rotr x 22

/-- EP1, the large sigma-1 mix (R104). -/
def ep1 (x : Word) : Word := rotr x 6 ^^^ rotr x 11 ^^^ rotr x 25

/-- t2 of R106 and R107. -/
def roundT2 (s : HashState) : Word := ep0 s.a + maj s.a s.b s.c

/-- The simultaneous rotation of the eight registers (R106): every right-hand side is an old value. -/
def rotateState (s : HashState) (t1 t2 : Word) : HashState :=
  { a := t1 + t2, b := s.a, c := s.b, d := s.c, e := s.d + t1, f := s.e, g := s.f, h := s.g }

/-- t1 in the fused form (R106). -/
def roundT1 (s : HashState) (kw mw : Word) : Word :=
  s.h + ep1 s.e + ch s.e s.f s.g + kw + mw

/-- Round, fused form (R106): COMPRESS_1X, COMPRESS_2X, COMPRESS_4X. -/
def roundFused (s : HashState) (kw mw : Word) : HashState :=
  rotateState s (roundT1 s kw mw) (roundT2 s)

/-- RoundSeq, the sequentially accumulated form (R107): COMPRESS_8X. -/
def roundSeq (s : HashState) (kw mw : Word) : HashState :=
  let t1 := s.h
  let t1 := t1 + ep1 s.e
  let t1 := t1 + ch s.e s.f s.g
  let t1 := t1 + kw
  let t1 := t1 + mw
  rotateState s t1 (roundT2 s)

/-- Round i of a compress with schedule m: the round function on K[i] and M[i] (R62, R106). -/
def roundAt (m : Schedule) (i : Nat) (s : HashState) : HashState :=
  roundFused s (kWord i) (mWord m i)

/-- Round i in the accumulated form (R62, R107). -/
def roundSeqAt (m : Schedule) (i : Nat) (s : HashState) : HashState :=
  roundSeq s (kWord i) (mWord m i)

/-- n consecutive rounds beginning with round i, in increasing order of the index. -/
def roundsFrom (m : Schedule) (i : Nat) : Nat → HashState → HashState
  | 0, s => s
  | n + 1, s => roundAt m (i + n) (roundsFrom m i n s)

/-- `Compress(s, m)`: rounds 0 to 63 (R120). No feed-forward (R23). -/
def compress (s : HashState) (m : Schedule) : HashState := roundsFrom m 0 64 s

end Sys2Proof.Machine
end

