-- ==== Sys2Proof/Machine/Flags.lean ====
section
/-! DEFINITION. The control fields BUSY, DONE, UF, IDX: the word STATUS shows them in (R35), what
starting a compress makes of them (R132), and what an engine step makes of them (R121).
The engine has no arithmetic flags (R29). -/

namespace Sys2Proof.Machine

/-- The STATUS word of R35: zext_32 of IDX[6:0], 0b0000, UF[1:0], DONE, BUSY. -/
def statusWord (idx : BitVec 7) (uf : BitVec 2) (done busy : Bool) : Word :=
  (idx ++ 0b0000#4 ++ uf ++ BitVec.ofBool done ++ BitVec.ofBool busy).setWidth 32

/-- The control fields after the start action with unroll select `sel` (R132). -/
def State.controlStarted (s : State) (sel : BitVec 2) : State :=
  { s with UF := sel, IDX := 0, BUSY := true, DONE := false }

/-- The control fields after one engine step (R121): the index advances by U, and the step that
makes it 64 clears BUSY and sets DONE. -/
def State.controlAdvanced (s : State) : State :=
  let idx := s.IDX + BitVec.ofNat 7 (unrollFactor s.UF)
  if idx = 64 then { s with IDX := idx, BUSY := false, DONE := true }
  else { s with IDX := idx }

/-- The control fields under reset (R38, R170). -/
def State.controlReset (s : State) : State :=
  { s with UF := 0, IDX := 0, BUSY := false, DONE := false }

end Sys2Proof.Machine
end

