-- ==== Sys2Proof/Machine/Engine.lean ====
section
/-! DEFINITION. The engine agent: its step is one loop iteration, U rounds (R121).
The four loop bodies are written out as R122 to R125 write them. -/

namespace Sys2Proof.Machine

/-- The loop body of COMPRESS_1X (R122). -/
def body1x (m : Schedule) (i : Nat) (s : HashState) : HashState :=
  roundAt m i s

/-- The loop body of COMPRESS_2X (R123). -/
def body2x (m : Schedule) (i : Nat) (s : HashState) : HashState :=
  let s := roundAt m i s
  roundAt m (i + 1) s

/-- The loop body of COMPRESS_4X (R124). -/
def body4x (m : Schedule) (i : Nat) (s : HashState) : HashState :=
  let s := roundAt m i s
  let s := roundAt m (i + 1) s
  let s := roundAt m (i + 2) s
  roundAt m (i + 3) s

/-- The loop body of COMPRESS_8X (R125), in the accumulated form of the round. -/
def body8x (m : Schedule) (i : Nat) (s : HashState) : HashState :=
  let s := roundSeqAt m i s
  let s := roundSeqAt m (i + 1) s
  let s := roundSeqAt m (i + 2) s
  let s := roundSeqAt m (i + 3) s
  let s := roundSeqAt m (i + 4) s
  let s := roundSeqAt m (i + 5) s
  let s := roundSeqAt m (i + 6) s
  roundSeqAt m (i + 7) s

/-- The loop body that the latched unroll select chooses (R26, R121). -/
def loopBody (uf : BitVec 2) (m : Schedule) (i : Nat) (s : HashState) : HashState :=
  if uf = 0 then body1x m i s
  else if uf = 1 then body2x m i s
  else if uf = 2 then body4x m i s
  else body8x m i s

/-- One engine step (R121), enabled when BUSY = 1. -/
def engineStep (s : State) : State :=
  { s with S := loopBody s.UF s.M s.IDX.toNat s.S }.controlAdvanced

/-- The engine's part of a rising edge with `rst_n` = 1: exactly one engine step while BUSY = 1,
nothing while idle (R181, R159). -/
def engineEdge (s : State) : State := if s.BUSY then engineStep s else s

end Sys2Proof.Machine
end

