-- ==== Sys2Proof/Machine/Ops.lean ====
section
/-! DEFINITION. The shared operations over registers and memory: host read and write (R54, R55), the
interlock (R57), the start action (R132), the command procedure (R82), acceptance of a transaction
(R51, R53) and reset (R170 to R172).
There is no operation for taking an exception or returning from one: the engine has neither
(R150, R154, R155). -/

namespace Sys2Proof.Machine

/-! ## Host accesses -/

/-- `MemRead(addr, 32)` (R54), with the map of R56: the value on `rsp_rdata`. It changes nothing. -/
def memRead (s : State) (addr : Addr) : Word :=
  match target addr with
  | .stateWord i => s.S.get i
  | .ctrl        => 0
  | .status      => statusWord s.IDX s.UF s.DONE s.BUSY
  | .sched i     => s.M[i]
  | .ktab i      => kTable[i]
  | .reserved    => 0

/-- The start action of a compress command (R132): S and M are not touched, no round is performed. -/
def startCompress (s : State) (sel : BitVec 2) : State := s.controlStarted sel

/-- `Command(v)` (R82): what a write of v to CTRL does. -/
def command (s : State) (v : Word) : State :=
  if fieldStart v then startCompress s (fieldUnrollSel v) else s

/-- S[i] <- v. -/
def State.writeS (s : State) (i : Fin 8) (v : Word) : State := { s with S := s.S.set i v }

/-- M[i] <- v. -/
def State.writeM (s : State) (i : Fin 64) (v : Word) : State := { s with M := s.M.set i v }

/-- `MemWrite(addr, 32, v)` (R55), with the map of R56. -/
def memWrite (s : State) (addr : Addr) (v : Word) : State :=
  match target addr with
  | .stateWord i => s.writeS i v
  | .ctrl        => command s v
  | .sched i     => s.writeM i v
  | .status      => s
  | .ktab _      => s
  | .reserved    => s

/-! ## The interlock and acceptance -/

/-- `req_ready` outside reset (R57). -/
def reqReady (s : State) (we : Bool) (addr : Addr) : Bool :=
  !s.BUSY || (!we && addr == statusAddr)

/-- The value of an accepted read appears on `rsp_rdata` and is appended to the read log (R54, R87). -/
def State.logRead (s : State) (v : Word) : State := { s with readLog := s.readLog ++ [v] }

/-- The transaction on the port has been accepted: the host goes on to its next action (R51, R53). -/
def State.nextAction (s : State) : State := { s with program := s.program.tail }

/-- A rising edge at which a read of `addr` is on the port. Accepted: it returns the value before the
edge, and the engine's step, if it has one, takes effect at the edge (R54, R67). Held: only the
engine steps (R58). -/
def readEdge (s : State) (addr : Addr) : State :=
  if reqReady s false addr then ((engineEdge s).logRead (memRead s addr)).nextAction
  else engineEdge s

/-- A rising edge at which a write of `addr` is on the port, whose effect is `effect`. Accepted only
while idle, when the engine has no step (R57, R67). Held: only the engine steps (R58). -/
def writeEdge (s : State) (addr : Addr) (effect : State → State) : State :=
  if reqReady s true addr then (effect s).nextAction else engineEdge s

/-! ## Reset -/

/-- The draw of reset number k of an engine for its working registers (R172). -/
def drawnS (engine k : Nat) : HashState where
  a := Config.resetData engine k 0
  b := Config.resetData engine k 1
  c := Config.resetData engine k 2
  d := Config.resetData engine k 3
  e := Config.resetData engine k 4
  f := Config.resetData engine k 5
  g := Config.resetData engine k 6
  h := Config.resetData engine k 7

/-- The draw of reset number k of an engine for its schedule memory (R172). -/
def drawnM (engine k : Nat) : Schedule := Vector.ofFn fun i => Config.resetData engine k (8 + i.val)

/-- The host's actions after a cycle under reset: a cycle in which it presents nothing passes; a
presented transaction stays held (R170, R171). -/
def heldThroughReset : List HostAction → List HostAction
  | .idle :: rest => rest
  | actions       => actions

/-- A cycle with `rst_n` = 0 (R170, R171): the control fields are 0, no transaction is accepted, the
engine takes no step, and S and M hold a new draw (R172). The number of the engine serves the draw
only: it is no state, and nothing on the port shows it (R160). -/
def resetEdge (engine : Nat) (s : State) : State :=
  { s.controlReset with
    S := drawnS engine s.resets
    M := drawnM engine s.resets
    program := heldThroughReset s.program
    resets := s.resets + 1 }

/-! ## The output pins (R50, R170) -/

/-- The level of `rst_n` in the present cycle. -/
def State.rstLevel (s : State) : Bool := s.rstN.headD true

/-- The output `busy`: BUSY, and 0 under reset. -/
def busyPin (s : State) : Bool := s.rstLevel && s.BUSY

/-- The output `done`: DONE, and 0 under reset. -/
def donePin (s : State) : Bool := s.rstLevel && s.DONE

/-- The output `req_ready` for a presented transaction: the interlock of R57, and 0 under reset. -/
def reqReadyPin (s : State) (r : Request) : Bool := s.rstLevel && reqReady s r.we r.addr

/-- The output `rsp_rdata` for a presented transaction: the word read in the cycle in which a read is
accepted (R54); in every other cycle its level has no meaning (log entry 13). -/
def rspRdataPin (s : State) (r : Request) : Option Word :=
  if reqReadyPin s r && !r.we then some (memRead s r.addr) else none

end Sys2Proof.Machine
end

