-- ==== Sys2Proof/Machine/Transactions.lean ====
section
/-! DEFINITION. The meanings of the two host transactions, RD and WR (R54, R55).
A meaning is what a rising edge of `clk` with `rst_n` = 1 does while the transaction is on the port
(R51): the transaction is accepted or held, as the interlock of R57 says. -/

namespace Sys2Proof.Machine

/-- RD (R54). The data field is ignored (R80). -/
def execRd (addr : Addr) (_unused : Word) (s : State) : Host.Outcome State Fault Refusal :=
  .next (readEdge s addr)

/-- WR (R55). -/
def execWr (addr : Addr) (data : Word) (s : State) : Host.Outcome State Fault Refusal :=
  .next (writeEdge s addr fun t => memWrite t addr data)

end Sys2Proof.Machine
end

