-- ==== Sys2Proof/Machine/Commands.lean ====
section
/-! DEFINITION. The meanings of the five commands: a write to CTRL on the port (R122 to R126).
A compress command starts the engine; the rounds are the engine's own steps at the following edges
(R121, R181), taken by step whatever the host presents meanwhile. -/

namespace Sys2Proof.Machine

/-- COMPRESS_1X (R122). The reserved bits are ignored (R85). -/
def execCompress1x (_reserved : BitVec 29) (s : State) : Host.Outcome State Fault Refusal :=
  .next (writeEdge s ctrlAddr fun t => startCompress t 0)

/-- COMPRESS_2X (R123). -/
def execCompress2x (_reserved : BitVec 29) (s : State) : Host.Outcome State Fault Refusal :=
  .next (writeEdge s ctrlAddr fun t => startCompress t 1)

/-- COMPRESS_4X (R124). -/
def execCompress4x (_reserved : BitVec 29) (s : State) : Host.Outcome State Fault Refusal :=
  .next (writeEdge s ctrlAddr fun t => startCompress t 2)

/-- COMPRESS_8X (R125). -/
def execCompress8x (_reserved : BitVec 29) (s : State) : Host.Outcome State Fault Refusal :=
  .next (writeEdge s ctrlAddr fun t => startCompress t 3)

/-- NOP (R126): accepted like any write, without effect; UF is not written. -/
def execNop (_unused : BitVec 31) (s : State) : Host.Outcome State Fault Refusal :=
  .next (writeEdge s ctrlAddr fun t => t)

end Sys2Proof.Machine
end

