-- ==== Sys2Proof/Machine/Dispatch.lean ====
section
/-! DEFINITION. One arm per instruction. -/

namespace Sys2Proof.Machine

/-- What a rising edge with `rst_n` = 1 does while `i` is on the port. -/
def exec (i : Instr) (s : State) : Host.Outcome State Fault Refusal :=
  match i with
  | .rd addr unused => Sys2Proof.Machine.execRd addr unused s
  | .wr addr data => Sys2Proof.Machine.execWr addr data s
  | .compress1x reserved => Sys2Proof.Machine.execCompress1x reserved s
  | .compress2x reserved => Sys2Proof.Machine.execCompress2x reserved s
  | .compress4x reserved => Sys2Proof.Machine.execCompress4x reserved s
  | .compress8x reserved => Sys2Proof.Machine.execCompress8x reserved s
  | .nop unused => Sys2Proof.Machine.execNop unused s

end Sys2Proof.Machine
end

