-- ==== Sys2Proof/Machine/Fetch.lean ====
section
/-! DEFINITION. What an edge meets on the port, the edge itself, and how a word is put on the port. -/

namespace Sys2Proof.Machine

/-- The level of `rst_n` at the present edge is used up; the next one is the next of the list. -/
def State.nextLevel (s : State) : State := { s with rstN := s.rstN.tail }

/-- A rising edge with `rst_n` = 1, by what the host has on the port.
A transaction: the instruction it decodes to (R81) is run.
`POLL` (R87): its `RD STATUS` is accepted at every edge (R57); a value with BUSY = 1 is not logged
and the host repeats the read; a value with BUSY = 0 is the last, and is logged.
Nothing: the engine steps if it is busy. -/
def portEdge (s : State) : Host.Outcome State Fault Refusal :=
  match s.program with
  | [] => .next (engineEdge s)
  | .idle :: _ => .next (engineEdge s).nextAction
  | .poll :: _ => if s.BUSY then .next (engineEdge s) else exec (.rd statusAddr 0) s
  | .present r :: _ => exec (decodeRequest r) s

/-- One rising edge of `clk` for the engine of that number (R160). With `rst_n` = 0, a reset, which wins
over everything else (R153, R170); otherwise what the port and the engine do. -/
def clockEdge (engine : Nat) (s : State) : Host.Outcome State Fault Refusal :=
  if s.rstLevel then portEdge s.nextLevel else .next (resetEdge engine s.nextLevel)

/-- A word of the opcode table put on the port of the coming edge: the host presents its transaction
first, and `rst_n` is 1 at that edge. A number that is no word of either format changes nothing. -/
def placeWord (s : State) (nbits w : Nat) : State :=
  match wordOfBits nbits w with
  | .ok word => { s with program := .present word.toRequest :: s.program, rstN := true :: s.rstN }
  | .error _ => s

end Sys2Proof.Machine
end

