-- ==== Sys2Proof/Machine/Step.lean ====
section
/-! DEFINITION. One step of the machine: one rising edge of `clk` (R50, R181; log entry 1). -/

namespace Sys2Proof.Machine

/-- One rising edge of `clk` of the one engine, number 0 of `N_ENGINES` = 1. -/
def step (s : State) : Host.Outcome State Fault Refusal := clockEdge 0 s

/-- `s` with that word's transaction on the port of the coming edge. -/
def State.withFetchWord (s : State) (nbits w : Nat) : State := placeWord s nbits w

end Sys2Proof.Machine
end

