-- ==== Sys2Proof/Machine/Listing.lean ====
section
/-! DEFINITION. The listing language of R87: the register names and the expansion of each line,
pseudo-instructions included, into what the host does on the port. -/

namespace Sys2Proof.Machine

/-- `STATE<i>` (R87). -/
def stateAddr (i : Fin 8) : Addr := BitVec.ofNat 8 i.val

/-- `SCHED<i>` (R87). -/
def schedAddr (i : Fin 64) : Addr := BitVec.ofNat 8 (0x40 + i.val)

/-- `KTAB<i>` (R87). -/
def ktabAddr (i : Fin 64) : Addr := BitVec.ofNat 8 (0x80 + i.val)

/-- A line of a listing (R87). -/
inductive Line where
  | rd (addr : Addr)
  | wr (addr : Addr) (word : Word)
  | compress1x
  | compress2x
  | compress4x
  | compress8x
  | nop
  | ldstate (words : HashState)
  | ldsched (words : Schedule)
  | rdstate
  | poll
  deriving DecidableEq, Repr

/-- `RD <addr>`: format T, we = 0, wdata = 0 (R87). -/
def presentRd (addr : Addr) : HostAction := .present { we := false, addr := addr, wdata := 0 }

/-- `WR <addr>, <word>`: format T, we = 1 (R87). -/
def presentWr (addr : Addr) (word : Word) : HostAction :=
  .present { we := true, addr := addr, wdata := word }

/-- The expansion of a line (R87). -/
def Line.expand : Line → List HostAction
  | .rd addr       => [presentRd addr]
  | .wr addr word  => [presentWr addr word]
  | .compress1x    => [presentWr ctrlAddr 0x00000001]
  | .compress2x    => [presentWr ctrlAddr 0x00000003]
  | .compress4x    => [presentWr ctrlAddr 0x00000005]
  | .compress8x    => [presentWr ctrlAddr 0x00000007]
  | .nop           => [presentWr ctrlAddr 0x00000000]
  | .ldstate words => (List.finRange 8).map fun i => presentWr (stateAddr i) (words.get i)
  | .ldsched words => (List.finRange 64).map fun i => presentWr (schedAddr i) words[i]
  | .rdstate       => (List.finRange 8).map fun i => presentRd (stateAddr i)
  | .poll          => [.poll]

/-- A listing as the host's actions, line after line (R87). -/
def assemble (lines : List Line) : List HostAction := lines.flatMap Line.expand

end Sys2Proof.Machine
end

