-- ==== Sys2Proof/Machine/Replicas.lean ====
section
/-! DEFINITION. Several engines (R160): a list of `N_ENGINES` states, one per engine instance, each
with its own port, stepping independently; K is shared and immutable. The place in the list is the
engine's number, from 0, which only the draw of R172 uses. -/

namespace Sys2Proof.Machine

/-- The engines after a first reset of each: S and M of each hold a draw of its own (R38, R172). -/
def resetReplicas (nEngines : Nat) : List State :=
  (List.range nEngines).map fun engine =>
    { State.resetWith (drawnS engine 0) (drawnM engine 0) with resets := 1 }

/-- One rising edge of engine number k; the others do nothing. A number that names no engine
changes nothing. -/
def stepReplica (engines : List State) (k : Nat) : Host.Outcome (List State) Fault Refusal :=
  match engines[k]? with
  | none => .next engines
  | some s =>
    match clockEdge k s with
    | .next t    => .next (engines.set k t)
    | .fault r   => .fault r
    | .refused r => .refused r

end Sys2Proof.Machine
end

