-- ==== Sys2Proof/Safety.lean ====
section
/-! DEFINITION. The terms claims are stated in: the invariant of R39, runs, the two levels of R9,
the untimed steps of R58 and R67. -/

namespace Sys2Proof.Machine

/-- The invariant of R39, items 1 to 5, by item. -/
structure State.Inv (s : State) : Prop where
  /-- Item 1. -/
  idx_le : s.IDX.toNat ≤ 64
  /-- Item 2, first half. -/
  idx_le_of_busy : s.BUSY = true → s.IDX.toNat ≤ 64 - unrollFactor s.UF
  /-- Item 2, second half. -/
  idx_multiple_of_busy : s.BUSY = true → s.IDX.toNat % unrollFactor s.UF = 0
  /-- Item 3. -/
  idx_of_done : s.BUSY = false → s.DONE = true → s.IDX = 64
  /-- Item 4. -/
  fresh : s.BUSY = false → s.DONE = false → s.IDX = 0 ∧ s.UF = 0
  /-- Item 5. -/
  not_done_of_busy : s.BUSY = true → s.DONE = false

/-- `n` rising edges from `s`. -/
def run : Nat → State → Host.Outcome State Fault Refusal
  | 0, s => .next s
  | n + 1, s =>
    match step s with
    | .next t    => run n t
    | .fault r   => .fault r
    | .refused r => .refused r

/-- A safe run: `n` edges without a fault or a refusal (R150). -/
def SafeRun (n : Nat) (s : State) : Prop := ∃ t, run n s = .next t

/-- No reset comes: `rst_n` is 1 at every coming edge. -/
def State.NoReset (s : State) : Prop := ∀ level ∈ s.rstN, level = true

/-- The unroll select of the compress command on the port, if there is one (R82): a presented write
to CTRL whose data word has START = 1. -/
def State.commandOnPort (s : State) : Option (BitVec 2) :=
  match s.program with
  | .present r :: _ =>
    if r.we && r.addr == ctrlAddr && fieldStart r.wdata then some (fieldUnrollSel r.wdata) else none
  | _ => none

/-- The effect of an accepted transaction (R53), as the untimed reading has it: a read is logged, a
write takes effect; the engine has no part in it. -/
def hostEffect (s : State) (r : Request) : State :=
  if r.we then (memWrite s r.addr r.wdata).nextAction
  else (s.logRead (memRead s r.addr)).nextAction

/-- A step of the host agent in the untimed reading (R53, R58): enabled when the interlock lets the
transaction through. -/
def HostStep (s t : State) : Prop :=
  ∃ r rest, s.program = .present r :: rest ∧ reqReady s r.we r.addr = true ∧ t = hostEffect s r

/-- A step of the engine agent (R121): enabled exactly when BUSY = 1. -/
def EngineStep (s t : State) : Prop := s.BUSY = true ∧ t = engineStep s

/-- Two host actions that differ at most in data: the same kind of transaction to the same address, and
for a write to CTRL the same START and UNROLL_SEL. -/
def SameKind : HostAction → HostAction → Prop
  | .present r, .present q =>
    r.we = q.we ∧ r.addr = q.addr ∧
      (r.we = true → r.addr = ctrlAddr → r.wdata.extractLsb' 0 3 = q.wdata.extractLsb' 0 3)
  | .poll, .poll => True
  | .idle, .idle => True
  | _, _ => False

/-- Two states that no control field, no level of `rst_n` and no kind of action on the port tells
apart: they may differ in every data word. -/
structure SameControl (s t : State) : Prop where
  idx     : s.IDX = t.IDX
  uf      : s.UF = t.UF
  busy    : s.BUSY = t.BUSY
  done    : s.DONE = t.DONE
  program : List.Forall₂ SameKind s.program t.program
  rstN    : s.rstN = t.rstN

end Sys2Proof.Machine
end

