-- ==== Sys2Proof/Certificates/Slice0/Obligations.lean ====
section
/-! DEFINITION. The statements for the provers, each a rule of spec/ in the terms of Safety.lean.
Every statement about an instruction concludes that exec answers a next state and says which.
The fields program, rstN and readLog are the model's host (log entry 4, the model's choice), and a step
is one rising edge of `clk`, the clocked reading of R181 (log entry 1). -/

open Sys2Proof Sys2Proof.Machine

/-! ## Encoding -/

/-- R80, R81, R82, R84: the decoder and the encoder are inverse to each other on every instruction,
ignored bits included, and on every word of both formats. -/
def Obligations.DecodeAndEncodeAgree : Prop :=
  (∀ i : Instr, decodeWord (encode i) = i) ∧ (∀ w : EncodedWord, encode (decodeWord w) = w)

/-- R81: every 41-bit number decodes, by we = t[40], addr = t[39:32], wdata = t[31:0]; accepted, RD
means MemRead and WR means MemWrite; and a write to address 0x08 means what its data word decodes to
as a command. -/
def Obligations.EveryTransactionWordDecodes : Prop :=
  (∀ w : Nat, w < 2 ^ 41 →
    decodeBits 41 w = .ok
      (if w / 2 ^ 40 = 1 then .wr (BitVec.ofNat 8 (w / 2 ^ 32)) (BitVec.ofNat 32 w)
       else .rd (BitVec.ofNat 8 (w / 2 ^ 32)) (BitVec.ofNat 32 w))) ∧
  (∀ (addr : Addr) (v : Word) (s : State), s.BUSY = false →
    exec (.rd addr v) s =
      .next { s with readLog := s.readLog ++ [memRead s addr], program := s.program.tail } ∧
    exec (.wr addr v) s = .next { memWrite s addr v with program := s.program.tail }) ∧
  (∀ (v : Word) (s : State), exec (.wr 0x08 v) s = exec (decodeC v) s)

/-- R82: bit 0 and bits 2:1 of a command word choose the command; bits 31:3 take no part; the command
is executed in an idle engine only. -/
def Obligations.CommandWordDecodesByItsLowThreeBits : Prop :=
  (∀ (v : Word) (s : State),
    (s.BUSY = false → exec (decodeC v) s = .next { command s v with program := s.program.tail }) ∧
    (s.BUSY = true → exec (decodeC v) s = .next (engineStep s))) ∧
  ∀ v : Word,
    decodeC v =
      if v.toNat % 8 = 1 then .compress1x (BitVec.ofNat 29 (v.toNat / 8))
      else if v.toNat % 8 = 3 then .compress2x (BitVec.ofNat 29 (v.toNat / 8))
      else if v.toNat % 8 = 5 then .compress4x (BitVec.ofNat 29 (v.toNat / 8))
      else if v.toNat % 8 = 7 then .compress8x (BitVec.ofNat 29 (v.toNat / 8))
      else .nop (BitVec.ofNat 31 (v.toNat / 2))

/-- R84: within each format the rows are disjoint and cover every word, the row a word selects is that
of the instruction it decodes to, and the five commands have these canonical format T words. -/
def Obligations.OpcodeRowsAreDisjointAndCovering : Prop :=
  (∀ t : BitVec 41,
    (opcodeRowsT.filter (·.selects t)).map (·.mnemonic) = [(decodeT t).mnemonic]) ∧
  (∀ v : Word,
    (opcodeRowsC.filter (·.selects v)).map (·.mnemonic) = [(decodeC v).mnemonic]) ∧
  (encode (.compress1x 0)).toRequest.toWord = 0x10800000001 ∧
  (encode (.compress2x 0)).toRequest.toWord = 0x10800000003 ∧
  (encode (.compress4x 0)).toRequest.toWord = 0x10800000005 ∧
  (encode (.compress8x 0)).toRequest.toWord = 0x10800000007 ∧
  (encode (.nop 0)).toRequest.toWord = 0x10800000000

/-- R80 to R82, with the words of spec/95_test_vectors.md section 4.6, format T words of 41 bits and
format C words of 32: sample words decode to the instructions they stand for. -/
def Obligations.SampleWordsDecode : Prop :=
  decodeTableWord 41 0x009deadbeef = some (.rd 0x09 0xdeadbeef) ∧
  decodeTableWord 41 0x1006a09e667 = some (.wr 0x00 0x6a09e667) ∧
  decodeTableWord 41 0x17f00000018 = some (.wr 0x7f 0x00000018) ∧
  decodeTableWord 32 0x80000001 = some (.compress1x 0x10000000) ∧
  decodeTableWord 32 0xfffffffb = some (.compress2x 0x1fffffff) ∧
  decodeTableWord 32 0x00000005 = some (.compress4x 0) ∧
  decodeTableWord 32 0x0000000f = some (.compress8x 1) ∧
  decodeTableWord 32 0x00000006 = some (.nop 3)

/-! ## A step -/

/-- R51, R81: with `rst_n` = 1 and the transaction of an instruction on the port, a step is exec of
that instruction; around it step only passes on to the next level of `rst_n`. And a word put on the
port by withFetchWord is run by the very next step. -/
def Obligations.StepRunsTheInstructionOnThePort : Prop :=
  (∀ (i : Instr) (s : State) (rest : List HostAction),
    s.rstLevel = true → s.program = .present (encode i).toRequest :: rest →
    step s = exec i { s with rstN := s.rstN.tail }) ∧
  (∀ (nbits w : Nat) (i : Instr) (s : State), decodeTableWord nbits w = some i →
    step (s.withFetchWord nbits w) =
      exec i { s with program := .present (encode i).toRequest :: s.program })

/-- R181, R159: what a step does with `rst_n` = 1 and no transaction on the port. With nothing
presented, an idle engine keeps its whole state and a busy one takes its engine step. A POLL is a read
of STATUS that is repeated while the value has BUSY = 1 and logged when it has BUSY = 0; that it reads
at every edge is the model's choice (log entry 19), R87 leaves the pace of its reads open. -/
def Obligations.StepWithoutATransaction : Prop :=
  ∀ s : State, s.rstLevel = true →
    (s.program = [] → s.BUSY = false → step s = .next { s with rstN := s.rstN.tail }) ∧
    (s.program = [] → s.BUSY = true → step s = .next { engineStep s with rstN := s.rstN.tail }) ∧
    (∀ rest, s.program = .idle :: rest → s.BUSY = false →
      step s = .next { s with rstN := s.rstN.tail, program := rest }) ∧
    (∀ rest, s.program = .idle :: rest → s.BUSY = true →
      step s = .next { engineStep s with rstN := s.rstN.tail, program := rest }) ∧
    (∀ rest, s.program = .poll :: rest → s.BUSY = true →
      step s = .next { engineStep s with rstN := s.rstN.tail }) ∧
    (∀ rest, s.program = .poll :: rest → s.BUSY = false →
      step s = .next { s with rstN := s.rstN.tail, program := rest,
                              readLog := s.readLog ++ [memRead s 0x09] })

/-- R150: the set of exception causes is empty. Every instruction in every state, and every number of
steps from every state, answers a next state. -/
def Obligations.NothingStopsTheMachine : Prop :=
  (∀ (i : Instr) (s : State), ∃ t, exec i s = .next t) ∧ (∀ (n : Nat) (s : State), SafeRun n s)

/-! ## RD and WR -/

/-- R54: an accepted read returns the word that the address selects, as its pseudocode reads it, from
the state before the edge; and it changes nothing: what else the edge does is the engine's step, if
the engine is busy (the read is then one of STATUS). -/
def Obligations.ReadReturnsTheAddressedWord : Prop :=
  ∀ (s : State) (addr : Addr) (unused : Word), s.BUSY = false ∨ addr = 0x09 →
    ∃ t, exec (.rd addr unused) s = .next t ∧
      t.readLog = s.readLog ++
        [if addr.extractLsb' 3 5 = 0 then s.S.get (addr.extractLsb' 0 3).toFin
         else if addr = 0x08 then 0x00000000
         else if addr = 0x09 then
           (s.IDX ++ 0b0000#4 ++ s.UF ++ BitVec.ofBool s.DONE ++ BitVec.ofBool s.BUSY).setWidth 32
         else if addr.extractLsb' 6 2 = 0b01 then s.M.get (addr.extractLsb' 0 6).toFin
         else if addr.extractLsb' 6 2 = 0b10 then kTable.get (addr.extractLsb' 0 6).toFin
         else 0x00000000] ∧
      t.program = s.program.tail ∧
      (s.BUSY = false → { t with readLog := s.readLog, program := s.program } = s) ∧
      (s.BUSY = true → { t with readLog := s.readLog, program := s.program } = engineStep s)

/-- R55: an accepted write does what its pseudocode says, and nothing else but that the host goes on to
its next action. -/
def Obligations.WriteDoesWhatTheAddressSelects : Prop :=
  ∀ (s : State) (addr : Addr) (v : Word), s.BUSY = false →
    exec (.wr addr v) s = .next
      { (if addr.extractLsb' 3 5 = 0 then
           { s with S := s.S.set (addr.extractLsb' 0 3).toFin v }
         else if addr = 0x08 then
           if v.getLsbD 0 then
             { s with UF := v.extractLsb' 1 2, IDX := 0, BUSY := true, DONE := false }
           else s
         else if addr.extractLsb' 6 2 = 0b01 then
           { s with M := s.M.set (addr.extractLsb' 0 6).toNat v (addr.extractLsb' 0 6).isLt }
         else s)
        with program := s.program.tail }

/-- R53, R55, R61: the frame of WR away from CTRL, said through reads. The written word reads as
written where the address names a word of S or M and as before elsewhere; every other address reads as
before; no control field and no logged value changes. -/
def Obligations.WriteChangesOnlyTheAddressedWord : Prop :=
  ∀ (s : State) (addr : Addr) (v : Word), s.BUSY = false → addr ≠ 0x08 →
    ∃ t, exec (.wr addr v) s = .next t ∧
      memRead t addr =
        (if addr.toNat < 0x08 ∨ (0x40 ≤ addr.toNat ∧ addr.toNat < 0x80) then v
         else memRead s addr) ∧
      (∀ other, other ≠ addr → memRead t other = memRead s other) ∧
      t.IDX = s.IDX ∧ t.UF = s.UF ∧ t.BUSY = s.BUSY ∧ t.DONE = s.DONE ∧
      t.readLog = s.readLog ∧ t.rstN = s.rstN ∧ t.resets = s.resets

/-- R54, R126, R132: the frame of the forms that store nothing (RD, the commands, WR to CTRL), said
through reads: accepted while idle, every address but STATUS reads as before, and S and M are
unchanged; after RD and NOP, STATUS reads as before too. -/
def Obligations.ReadsAndCommandsStoreNothing : Prop :=
  ∀ (i : Instr) (s : State), s.BUSY = false →
    (∀ addr v, i = .wr addr v → addr = 0x08) →
    ∃ t, exec i s = .next t ∧ t.S = s.S ∧ t.M = s.M ∧
      (∀ addr, addr ≠ 0x09 → memRead t addr = memRead s addr) ∧
      (∀ addr unused, i = .rd addr unused → memRead t 0x09 = memRead s 0x09) ∧
      (∀ unused, i = .nop unused → memRead t 0x09 = memRead s 0x09) ∧
      t.rstN = s.rstN ∧ t.resets = s.resets

/-- R35: the STATUS word, field by field; a read of it is accepted at any time and has no side effect;
a write of it while idle is ignored; while busy no other transaction is accepted; the rule's examples. -/
def Obligations.StatusShowsTheControlFields : Prop :=
  ∀ (s : State) (v : Word),
    (memRead s 0x09).toNat =
      s.IDX.toNat * 256 + s.UF.toNat * 4 + s.DONE.toNat * 2 + s.BUSY.toNat ∧
    (s.BUSY = false → exec (.wr 0x09 v) s = .next { s with program := s.program.tail }) ∧
    (s.BUSY = false → exec (.rd 0x09 v) s = .next
      { s with program := s.program.tail, readLog := s.readLog ++ [memRead s 0x09] }) ∧
    (s.BUSY = true → exec (.rd 0x09 v) s = .next
      { engineStep s with program := s.program.tail, readLog := s.readLog ++ [memRead s 0x09] }) ∧
    (∀ i : Instr, s.BUSY = true → (∀ unused, i ≠ .rd 0x09 unused) →
      exec i s = .next (engineStep s)) ∧
    statusWord 0 0 false false = 0x00000000 ∧ statusWord 0 3 false true = 0x0000000D ∧
    statusWord 24 3 false true = 0x0000180D ∧ statusWord 64 3 true false = 0x0000400E

/-- R34: CTRL reads 0 always; a write to it, accepted only while idle, starts the compress its bits
2:0 say or has no effect; bits 31:3 are ignored. -/
def Obligations.CtrlIsTheCommandRegister : Prop :=
  ∀ (s : State) (v : Word),
    memRead s 0x08 = 0 ∧
    (s.BUSY = false → v.getLsbD 0 = true → exec (.wr 0x08 v) s = .next
      { s with UF := v.extractLsb' 1 2, IDX := 0, BUSY := true, DONE := false,
               program := s.program.tail }) ∧
    (s.BUSY = false → v.getLsbD 0 = false →
      exec (.wr 0x08 v) s = .next { s with program := s.program.tail }) ∧
    (∀ w : Word, w.toNat % 8 = v.toNat % 8 → exec (.wr 0x08 w) s = exec (.wr 0x08 v) s) ∧
    (s.BUSY = true → exec (.wr 0x08 v) s = .next (engineStep s))

/-! ## The interlock and the order of transactions -/

/-- R57: `req_ready` is the interlock's function of BUSY and of the presented transaction, and the
transaction is accepted at the edge exactly when it is 1. What is then logged of a read is the word that
`rsp_rdata` has in that cycle. -/
def Obligations.InterlockDecidesAcceptance : Prop :=
  ∀ (s : State) (r : Request) (rest : List HostAction),
    s.rstLevel = true → s.program = .present r :: rest →
    (reqReadyPin s r = true ↔ (s.BUSY = false ∨ (r.we = false ∧ r.addr = 0x09))) ∧
    ∃ t, step s = .next t ∧
      t.program = (if reqReadyPin s r then rest else .present r :: rest) ∧
      t.readLog = s.readLog ++ (rspRdataPin s r).toList

/-- R58: a held transaction has no effect: the edge leaves exactly the state it would leave if nothing
were presented, and the transaction stays presented. -/
def Obligations.HeldTransactionHasNoEffect : Prop :=
  ∀ (s : State) (r : Request) (rest : List HostAction),
    s.rstLevel = true → s.program = .present r :: rest →
    s.BUSY = true → ¬ (r.we = false ∧ r.addr = 0x09) →
    ∃ t, step { s with program := [] } = .next t ∧
      step s = .next { t with program := .present r :: rest }

/-- R55, R57, R122 to R126: while a compress runs, a write, a command among them, waits: the edge is
the engine's step alone. -/
def Obligations.WritesAndCommandsWaitWhileBusy : Prop :=
  ∀ (i : Instr) (s : State), s.BUSY = true → (∀ addr unused, i ≠ .rd addr unused) →
    exec i s = .next (engineStep s)

/-- R51, R53: at most one transaction is accepted at an edge: the host's actions advance by at most one
and at most one value is logged. -/
def Obligations.AtMostOneTransactionPerEdge : Prop :=
  ∀ s : State, ∃ t, step s = .next t ∧
    (t.program = s.program ∨ t.program = s.program.tail) ∧
    (t.readLog = s.readLog ∨
      (t.program = s.program.tail ∧ ∃ v, t.readLog = s.readLog ++ [v]))

/-- R57, R63: no transaction sees a partial result: a value logged while a compress runs is STATUS as
it stood before the edge. -/
def Obligations.OnlyStatusIsReadDuringACompress : Prop :=
  ∀ s : State, s.BUSY = true → ∃ t, step s = .next t ∧
    (t.readLog = s.readLog ∨ t.readLog = s.readLog ++ [memRead s 0x09])

/-- R67, R9: a clocked edge with a transaction on the port is, in the untimed reading, at most one host
step followed, if the engine was busy, by one engine step. -/
def Obligations.EdgeIsAHostStepThenAnEngineStep : Prop :=
  ∀ (s : State) (r : Request) (rest : List HostAction),
    s.rstLevel = true → s.program = .present r :: rest →
    ∃ t u, step s = .next t ∧
      (if reqReady s r.we r.addr then HostStep { s with rstN := s.rstN.tail } u
       else u = { s with rstN := s.rstN.tail }) ∧
      (if s.BUSY then EngineStep u t else t = u)

/-! ## The commands -/

/-- R132: the start action of the four compress commands, accepted while idle: UF, IDX, BUSY, DONE are
written, S and M are not touched, no round is performed. -/
def Obligations.CompressCommandsStartTheEngine : Prop :=
  ∀ (s : State) (reserved : BitVec 29), s.BUSY = false →
    exec (.compress1x reserved) s = .next
      { s with UF := 0, IDX := 0, BUSY := true, DONE := false, program := s.program.tail } ∧
    exec (.compress2x reserved) s = .next
      { s with UF := 1, IDX := 0, BUSY := true, DONE := false, program := s.program.tail } ∧
    exec (.compress4x reserved) s = .next
      { s with UF := 2, IDX := 0, BUSY := true, DONE := false, program := s.program.tail } ∧
    exec (.compress8x reserved) s = .next
      { s with UF := 3, IDX := 0, BUSY := true, DONE := false, program := s.program.tail }

/-- R126: a command word with bit 0 = 0 is NOP, whatever its bits 31:1; accepted while idle it has no
effect; while busy it is held. -/
def Obligations.NopHasNoEffect : Prop :=
  (∀ v : Word, v.getLsbD 0 = false → decodeC v = .nop (v.extractLsb' 1 31)) ∧
  ∀ (s : State) (unused : BitVec 31),
    (s.BUSY = false → exec (.nop unused) s = .next { s with program := s.program.tail }) ∧
    (s.BUSY = true → exec (.nop unused) s = .next (engineStep s))

/-- R121: while BUSY = 1 an edge takes one engine step: rounds IDX to IDX + U - 1 in this order, each on
the constant and the schedule word of its own index and, when UF = 3, in the accumulated form, then the
advance of the index, then the loop test. The sequence `f` of states is the rule's, round by round.
While BUSY = 0 there is no engine step. -/
def Obligations.EngineStepPerformsURounds : Prop :=
  (∀ s : State, s.BUSY = false → engineEdge s = s) ∧
  ∀ (s : State) (f : Nat → HashState), s.Inv → s.BUSY = true → s.rstLevel = true →
    f 0 = s.S →
    (∀ (j : Nat) (h : s.IDX.toNat + j < 64), j < 2 ^ s.UF.toNat →
      f (j + 1) =
        if s.UF = 3 then
          roundSeq (f j) (kTable.get ⟨s.IDX.toNat + j, h⟩) (s.M.get ⟨s.IDX.toNat + j, h⟩)
        else
          roundFused (f j) (kTable.get ⟨s.IDX.toNat + j, h⟩) (s.M.get ⟨s.IDX.toNat + j, h⟩)) →
    ∃ t, step s = .next t ∧
      t.S = f (2 ^ s.UF.toNat) ∧ t.M = s.M ∧ t.UF = s.UF ∧
      t.IDX.toNat = s.IDX.toNat + 2 ^ s.UF.toNat ∧
      (t.IDX = 64 → t.BUSY = false ∧ t.DONE = true) ∧
      (t.IDX ≠ 64 → t.BUSY = true ∧ t.DONE = s.DONE)

/-- R62, R31: round i reads K and M at index i and nowhere else: two schedules that agree at the indices
IDX to IDX + U - 1 give the same S after the engine's step. -/
def Obligations.EngineStepReadsOnlyItsScheduleWords : Prop :=
  ∀ (s : State) (m : Schedule), s.Inv → s.BUSY = true → s.rstLevel = true →
    (∀ i : Fin 64, s.IDX.toNat ≤ i.val → i.val < s.IDX.toNat + unrollFactor s.UF →
      m.get i = s.M.get i) →
    ∃ t u, step s = .next t ∧ step { s with M := m } = .next u ∧ u.S = t.S

/-- R66: from the acceptance of a compress to its end M is constant and S is written by the engine only;
K is constant always. -/
def Obligations.TablesAreStableDuringACompress : Prop :=
  (∀ s : State, s.BUSY = true → s.rstLevel = true →
    ∃ t, step s = .next t ∧ t.M = s.M ∧ t.S = (engineStep s).S) ∧
  (∀ (s : State) (i : Fin 64), memRead s (ktabAddr i) = kTable.get i)

/-! ## The arithmetic -/

/-- R7: bit i of ROTR(x, n) is bit (i + n) mod 32 of x. -/
def Obligations.RotrRotatesToTheRight : Prop :=
  ∀ (x : Word) (n i : Nat), 0 < n → n < 32 → i < 32 →
    (rotr x n).getLsbD i = x.getLsbD ((i + n) % 32)

/-- R101: CH, its definition, its reading bit by bit, its equivalent forms, corner cases, examples. -/
def Obligations.ChIsBitwiseChoice : Prop :=
  (∀ x y z : Word,
    ch x y z = (x &&& y) ^^^ (~~~x &&& z) ∧
    (∀ i, i < 32 → (ch x y z).getLsbD i = if x.getLsbD i then y.getLsbD i else z.getLsbD i) ∧
    ch x y z = (x &&& y) ||| (~~~x &&& z) ∧
    ch x y z = z ^^^ (x &&& (y ^^^ z)) ∧
    ch 0x00000000 y z = z ∧ ch 0xFFFFFFFF y z = y ∧ ch x y y = y ∧
    ch x 0xFFFFFFFF 0 = x ∧ ch x 0 0xFFFFFFFF = ~~~x) ∧
  ch 0xFFFF0000 0x12345678 0x9ABCDEF0 = 0x1234DEF0 ∧
  ch 0x510E527F 0x9B05688C 0x1F83D9AB = 0x1F85C98C

/-- R102: MAJ, its definition, its reading bit by bit, its equivalent form, symmetry, corner cases,
examples. -/
def Obligations.MajIsBitwiseMajority : Prop :=
  (∀ x y z : Word,
    maj x y z = (x &&& y) ^^^ (x &&& z) ^^^ (y &&& z) ∧
    (∀ i, i < 32 → ((maj x y z).getLsbD i = true ↔
      2 ≤ (x.getLsbD i).toNat + (y.getLsbD i).toNat + (z.getLsbD i).toNat)) ∧
    maj x y z = (x &&& y) ||| (x &&& z) ||| (y &&& z) ∧
    maj x y z = maj y x z ∧ maj x y z = maj x z y ∧
    maj x x z = x ∧ maj 0 y z = y &&& z ∧ maj 0xFFFFFFFF y z = y ||| z ∧ maj x y (~~~y) = x) ∧
  maj 0xFFFF0000 0x12345678 0x9ABCDEF0 = 0x9ABC5670 ∧
  maj 0x6A09E667 0xBB67AE85 0x3C6EF372 = 0x3A6FE667

/-- R103: EP0, its definition, its reading bit by bit, linearity, corner cases, examples. -/
def Obligations.Ep0MixesThreeRotations : Prop :=
  (∀ x y : Word,
    ep0 x = rotr x 2 ^^^ rotr x 13 ^^^ rotr x 22 ∧
    (∀ i, i < 32 → (ep0 x).getLsbD i =
      (x.getLsbD ((i + 2) % 32) ^^ x.getLsbD ((i + 13) % 32) ^^ x.getLsbD ((i + 22) % 32))) ∧
    ep0 (x ^^^ y) = ep0 x ^^^ ep0 y) ∧
  ep0 0x00000000 = 0x00000000 ∧ ep0 0xFFFFFFFF = 0xFFFFFFFF ∧
  ep0 0x00000001 = 0x40080400 ∧ ep0 0x80000000 = 0x20040200 ∧
  ep0 0x6A09E667 = 0xCE20B47E ∧ ep0 0x12345678 = 0x66146474 ∧
  rotr 0x12345678 2 = 0x048D159E ∧ rotr 0x12345678 13 = 0xB3C091A2 ∧
  rotr 0x12345678 22 = 0xD159E048

/-- R104: EP1, its definition, its reading bit by bit, linearity, corner cases, examples. -/
def Obligations.Ep1MixesThreeRotations : Prop :=
  (∀ x y : Word,
    ep1 x = rotr x 6 ^^^ rotr x 11 ^^^ rotr x 25 ∧
    (∀ i, i < 32 → (ep1 x).getLsbD i =
      (x.getLsbD ((i + 6) % 32) ^^ x.getLsbD ((i + 11) % 32) ^^ x.getLsbD ((i + 25) % 32))) ∧
    ep1 (x ^^^ y) = ep1 x ^^^ ep1 y) ∧
  ep1 0x00000000 = 0x00000000 ∧ ep1 0xFFFFFFFF = 0xFFFFFFFF ∧
  ep1 0x00000001 = 0x04200080 ∧ ep1 0x80000000 = 0x02100040 ∧
  ep1 0x510E527F = 0x3587272B ∧ ep1 0x12345678 = 0x3561ABDA ∧
  rotr 0x12345678 6 = 0xE048D159 ∧ rotr 0x12345678 11 = 0xCF02468A ∧
  rotr 0x12345678 25 = 0x1A2B3C09

/-- R106, R111: the round computed as a big-integer simulation reduced once, at the end, modulo 2^32. -/
def Obligations.RoundMatchesBigIntegerSimulation : Prop :=
  ∀ (s : HashState) (kw mw : Word),
    (roundFused s kw mw).a.toNat =
      (s.h.toNat + (ep1 s.e).toNat + (ch s.e s.f s.g).toNat + kw.toNat + mw.toNat +
        (ep0 s.a).toNat + (maj s.a s.b s.c).toNat) % 2 ^ 32 ∧
    (roundFused s kw mw).e.toNat =
      (s.d.toNat + s.h.toNat + (ep1 s.e).toNat + (ch s.e s.f s.g).toNat + kw.toNat + mw.toNat)
        % 2 ^ 32 ∧
    (roundFused s kw mw).b = s.a ∧ (roundFused s kw mw).c = s.b ∧ (roundFused s kw mw).d = s.c ∧
    (roundFused s kw mw).f = s.e ∧ (roundFused s kw mw).g = s.f ∧ (roundFused s kw mw).h = s.g

/-- R107: RoundSeq, its five sequential statements, and its equality with Round. -/
def Obligations.AccumulatedRoundEqualsFusedRound : Prop :=
  ∀ (s : HashState) (kw mw : Word),
    (∀ t1 t2 : Word, t1 = (((s.h + ep1 s.e) + ch s.e s.f s.g) + kw) + mw →
      t2 = ep0 s.a + maj s.a s.b s.c →
      roundSeq s kw mw = ⟨t1 + t2, s.a, s.b, s.c, s.d + t1, s.e, s.f, s.g⟩) ∧
    roundSeq s kw mw = roundFused s kw mw

/-- R109: Round is a bijection on states for fixed kw and mw, with the operand recovered as the rule
says. -/
def Obligations.RoundIsABijection : Prop :=
  ∀ kw mw : Word,
    Function.Bijective (fun s : HashState => roundFused s kw mw) ∧
    ∀ s r : HashState, r = roundFused s kw mw →
      ∀ t1 t2 : Word, t2 = ep0 s.a + maj s.a s.b s.c → t1 = r.a - t2 →
        s.a = r.b ∧ s.b = r.c ∧ s.c = r.d ∧ s.e = r.f ∧ s.f = r.g ∧ s.g = r.h ∧
        s.d = r.e - t1 ∧ s.h = t1 - ep1 s.e - ch s.e s.f s.g - kw - mw

/-- R33: K[i] is the cube root of the i-th prime times 2^96, rounded down, modulo 2^32. -/
def Obligations.RoundConstantsAreCubeRootFractions : Prop :=
  ∀ i : Fin 64, ∃ r : Nat,
    r ^ 3 ≤ Nat.nth Nat.Prime i * 2 ^ 96 ∧ Nat.nth Nat.Prime i * 2 ^ 96 < (r + 1) ^ 3 ∧
    (kTable.get i).toNat = r % 2 ^ 32

/-- R120: Compress(s, m) is s_64 of the sequence s_0 = s, s_(i+1) = Round(s_i, K[i], m[i]); the state
after n of the rounds is s_n. -/
def Obligations.CompressIsSixtyFourRounds : Prop :=
  ∀ (s : HashState) (m : Schedule) (f : Nat → HashState),
    f 0 = s →
    (∀ (i : Nat) (h : i < 64), f (i + 1) = roundFused (f i) (kTable.get ⟨i, h⟩) (m.get ⟨i, h⟩)) →
    (∀ n, n ≤ 64 → roundsFrom m 0 n s = f n) ∧ compress s m = f 64

/-- R109, R120: a compress loses no information about its starting state when M is known. -/
def Obligations.CompressIsABijectionForEachSchedule : Prop :=
  ∀ m : Schedule, Function.Bijective (fun s : HashState => compress s m)

/-! ## The whole compress -/

/-- R127, R122 to R125: a compress command accepted with working registers s and schedule m completes
after exactly 64 / U engine steps, whatever the host presents meanwhile, with S = Compress(s, m), M
unchanged, UF the select, IDX = 64, BUSY = 0, DONE = 1; after k < 64 / U of them, BUSY = 1, IDX = k U
and S is the state after k U rounds. -/
def Obligations.AcceptedCompressCompletes : Prop :=
  ∀ (s : State) (v : Word) (rest : List HostAction) (U : Nat),
    s.NoReset → s.BUSY = false → v.getLsbD 0 = true → U = 2 ^ (v.extractLsb' 1 2).toNat →
    s.program = .present ⟨true, 0x08, v⟩ :: rest →
    (∃ t, run (1 + 64 / U) s = .next t ∧
      t.S = compress s.S s.M ∧ t.M = s.M ∧ t.UF = v.extractLsb' 1 2 ∧
      t.IDX = 64 ∧ t.BUSY = false ∧ t.DONE = true) ∧
    (∀ k, k < 64 / U → ∃ t, run (1 + k) s = .next t ∧
      t.S = roundsFrom s.M 0 (k * U) s.S ∧ t.M = s.M ∧ t.UF = v.extractLsb' 1 2 ∧
      t.IDX.toNat = k * U ∧ t.BUSY = true ∧ t.DONE = false)

/-- R127: the central correctness invariant: from identical state and schedule the four variants leave
bit-for-bit identical registers, each after its own number of engine steps. -/
def Obligations.UnrollVariantsAgree : Prop :=
  ∀ (s : State) (v w : Word) (rest rest' : List HostAction),
    s.NoReset → s.BUSY = false → v.getLsbD 0 = true → w.getLsbD 0 = true →
    ∃ t u,
      run (1 + 64 / 2 ^ (v.extractLsb' 1 2).toNat)
        { s with program := .present ⟨true, 0x08, v⟩ :: rest } = .next t ∧
      run (1 + 64 / 2 ^ (w.extractLsb' 1 2).toNat)
        { s with program := .present ⟨true, 0x08, w⟩ :: rest' } = .next u ∧
      t.S = u.S ∧ t.M = u.M ∧ t.IDX = u.IDX ∧ t.BUSY = u.BUSY ∧ t.DONE = u.DONE

/-- R58, R184: every held transaction is accepted, after at most 64 edges without reset. -/
def Obligations.HeldTransactionIsAccepted : Prop :=
  ∀ (s : State) (r : Request) (rest : List HostAction),
    s.Inv → s.NoReset → s.program = .present r :: rest →
    ∃ n t u, n ≤ 64 ∧ run n s = .next t ∧ t.program = .present r :: rest ∧
      reqReadyPin t r = true ∧ step t = .next u ∧ u.program = rest

/-! ## The control fields -/

/-- R26, R27, R28: what an edge makes of UF, IDX, BUSY, DONE: an accepted compress command, the engine's
step and reset write them, nothing else does; while BUSY = 1 every transaction but a read of STATUS is
held; the outputs `busy` and `done` carry the flags. -/
def Obligations.ControlFieldsFollowCommandsAndEngine : Prop :=
  (∀ s : State, s.rstLevel = false →
    ∃ t, step s = .next t ∧ t.UF = 0 ∧ t.IDX = 0 ∧ t.BUSY = false ∧ t.DONE = false) ∧
  ∀ s : State, s.rstLevel = true →
    busyPin s = s.BUSY ∧ donePin s = s.DONE ∧
    ∃ t, step s = .next t ∧
      (∀ r rest, s.BUSY = true → s.program = .present r :: rest → ¬ (r.we = false ∧ r.addr = 0x09) →
        t.program = s.program) ∧
      (s.BUSY = true →
        t.UF = s.UF ∧ t.IDX = s.IDX + BitVec.ofNat 7 (2 ^ s.UF.toNat) ∧
        (t.IDX = 64 → t.BUSY = false ∧ t.DONE = true) ∧
        (t.IDX ≠ 64 → t.BUSY = true ∧ t.DONE = s.DONE)) ∧
      (∀ sel, s.BUSY = false → s.commandOnPort = some sel →
        t.UF = sel ∧ t.IDX = 0 ∧ t.BUSY = true ∧ t.DONE = false) ∧
      (s.BUSY = false → s.commandOnPort = none →
        t.UF = s.UF ∧ t.IDX = s.IDX ∧ t.BUSY = s.BUSY ∧ t.DONE = s.DONE)

/-- R29: no data value influences a control field: two states that differ in S, M, what was read and the
words still to be written to S or M run through the same control fields, with the host's actions
accepted at the same edges. -/
def Obligations.DataNeverInfluencesControl : Prop :=
  ∀ (n : Nat) (s s' : State), SameControl s s' →
    ∃ t t', run n s = .next t ∧ run n s' = .next t' ∧ SameControl t t'

/-- R39, items 1 to 5: every step from a state that meets the invariant gives one that meets it. -/
def Obligations.StepKeepsTheInvariant : Prop :=
  ∀ s : State, s.Inv → ∃ t, step s = .next t ∧ t.Inv

/-- R39 at reset: the state after reset meets the invariant, whatever S and M hold, and so does each of
several engines (R160). -/
def Obligations.ResetMeetsTheInvariant : Prop :=
  State.reset.Inv ∧ (∀ (regs : HashState) (sched : Schedule), (State.resetWith regs sched).Inv) ∧
  ∀ nEngines : Nat, (resetReplicas nEngines).length = nEngines ∧
    ∀ s ∈ resetReplicas nEngines, s.Inv

/-! ## Reset -/

/-- R38: the value of every piece of state after reset. S and M are any words: the statement holds for
every draw of them, the model's own choice of zero among them (log entry 2). -/
def Obligations.ResetLeavesControlFieldsZero : Prop :=
  (∀ (regs : HashState) (sched : Schedule) (s : State), s = State.resetWith regs sched →
    s.BUSY = false ∧ s.DONE = false ∧ s.UF = 0 ∧ s.IDX = 0 ∧ s.S = regs ∧ s.M = sched ∧
    (∀ i : Fin 64, memRead s (ktabAddr i) = kTable.get i) ∧
    memRead s 0x08 = 0 ∧ memRead s 0x09 = 0 ∧ busyPin s = false ∧ donePin s = false) ∧
  ∃ regs sched, State.reset = State.resetWith regs sched

/-- R170, R171, R172: an edge with `rst_n` = 0, of any engine in any state: the control fields become 0,
a running compress is abandoned, S and M hold a draw of that engine and that reset (the model's free
value, log entry 3), nothing is accepted or logged, and a presented transaction stays held and is
accepted at the first edge with `rst_n` = 1. A step is the edge of engine number 0. -/
def Obligations.ResetAbandonsACompress : Prop :=
  (∀ s : State, step s = clockEdge 0 s) ∧
  ∀ (engine : Nat) (s : State) (levels : List Bool), s.rstN = false :: levels →
    busyPin s = false ∧ donePin s = false ∧ (∀ r, reqReadyPin s r = false) ∧
    ∃ t, clockEdge engine s = .next t ∧
      t.BUSY = false ∧ t.DONE = false ∧ t.UF = 0 ∧ t.IDX = 0 ∧
      t.S = drawnS engine s.resets ∧ t.M = drawnM engine s.resets ∧
      (∀ i : Fin 8, t.S.get i = Config.resetData engine s.resets i.val) ∧
      (∀ i : Fin 64, t.M.get i = Config.resetData engine s.resets (8 + i.val)) ∧
      t.resets = s.resets + 1 ∧ t.readLog = s.readLog ∧ t.rstN = levels ∧
      ∀ r rest, s.program = .present r :: rest →
        t.program = s.program ∧
        (t.rstLevel = true → ∃ u, clockEdge engine t = .next u ∧ u.program = rest)

/-- R128, R171: nothing but reset ends a compress early: without it, BUSY stays 1 until the engine step
that makes IDX = 64. -/
def Obligations.OnlyResetEndsACompressEarly : Prop :=
  ∀ s : State, s.BUSY = true → ∃ t, step s = .next t ∧
    (t.BUSY = false → s.rstLevel = false ∨ (t.IDX = 64 ∧ t.DONE = true))

/-! ## Several engines -/

/-- R160: engines share no state: an edge of one is that engine's edge in its own place and leaves every
other alone, and edges of two different engines commute. Outside reset all engines are the same machine;
under reset each takes a draw of its own number, and edges commute for the same draws (log entry 3). -/
def Obligations.EnginesAreIndependent : Prop :=
  (∀ (k : Nat) (s : State), s.rstLevel = true → clockEdge k s = step s) ∧
  ∀ (engines : List State) (j k : Nat), j ≠ k →
    ∃ afterK afterJ both,
      stepReplica engines k = .next afterK ∧ afterK[j]? = engines[j]? ∧
      (∀ s, engines[k]? = some s → ∃ t, clockEdge k s = .next t ∧ afterK = engines.set k t) ∧
      afterK.length = engines.length ∧
      stepReplica engines j = .next afterJ ∧
      stepReplica afterK j = .next both ∧ stepReplica afterJ k = .next both

/-! ## The form of a transaction word in whole bytes -/

/-- The model's choice, log entry 10 (R80 knows 41 bits only): a number of 48 bits decodes as the 41-bit
number it is, a number with a bit above bit 40 is rejected by name, and so is every other width. -/
def Obligations.WholeByteTransactionWordsDecodeAlike : Prop :=
  (∀ w : Nat, decodeBits 48 w = decodeBits 41 w) ∧
  (∀ w : Nat, 2 ^ 41 ≤ w → decodeBits 41 w = .error .bitsBeyondTheFormat) ∧
  (∀ nbits w : Nat, nbits ≠ 32 → nbits ≠ 41 → nbits ≠ 48 →
    decodeBits nbits w = .error .noFormatOfThisWidth)
end

