-- ==== Sys2Proof/Laws/Decode.lean ====
section
/-! SUPPORT. The fields of a packed word are what was packed. -/

namespace Sys2Proof

theorem fieldWe_toWord (r : Request) : fieldWe r.toWord = r.we := by
  obtain ⟨we, addr, wdata⟩ := r
  simp only [fieldWe, Request.toWord, BitVec.getLsbD_setWidth, BitVec.getLsbD_append]
  cases we <;> simp

theorem fieldAddr_toWord (r : Request) : fieldAddr r.toWord = r.addr := by
  ext i hi
  simp only [fieldAddr, Request.toWord, BitVec.getElem_extractLsb', BitVec.getLsbD_setWidth,
    BitVec.getLsbD_append]
  simp [hi, show 32 + i < 41 by omega]

theorem fieldWdata_toWord (r : Request) : fieldWdata r.toWord = r.wdata := by
  ext i hi
  simp only [fieldWdata, Request.toWord, BitVec.getElem_extractLsb', BitVec.getLsbD_setWidth,
    BitVec.getLsbD_append]
  simp [hi, show i < 41 by omega]

theorem fieldStart_commandWord (reserved : BitVec 29) (sel : BitVec 2) (start : Bool) :
    fieldStart (commandWord reserved sel start) = start := by
  simp only [fieldStart, commandWord, BitVec.getLsbD_setWidth, BitVec.getLsbD_append]
  cases start <;> simp

theorem fieldUnrollSel_commandWord (reserved : BitVec 29) (sel : BitVec 2) (start : Bool) :
    fieldUnrollSel (commandWord reserved sel start) = sel := by
  ext i hi
  simp only [fieldUnrollSel, commandWord, BitVec.getElem_extractLsb', BitVec.getLsbD_setWidth,
    BitVec.getLsbD_append]
  simp [hi, show 1 + i < 32 by omega]

theorem fieldReserved_commandWord (reserved : BitVec 29) (sel : BitVec 2) (start : Bool) :
    fieldReserved (commandWord reserved sel start) = reserved := by
  ext i hi
  simp only [fieldReserved, commandWord, BitVec.getElem_extractLsb', BitVec.getLsbD_setWidth,
    BitVec.getLsbD_append]
  simp only [show 3 + i < 32 by omega, show ¬ 3 + i < 1 by omega, show ¬ 3 + i - 1 < 2 by omega,
    show 3 + i - 1 - 2 = i by omega, decide_true, Bool.true_and, if_false, BitVec.getLsbD_eq_getElem hi]

end Sys2Proof
end

