-- ==== Sys2Proof/Laws/State.lean ====
section
/-! SUPPORT. One lemma per field per update of State: what the field holds after the update. -/

namespace Sys2Proof.Machine

/-! ### controlStarted -/

@[simp] theorem State.controlStarted_S (s : State) (sel : BitVec 2) :
    (s.controlStarted sel).S = s.S := rfl

@[simp] theorem State.controlStarted_M (s : State) (sel : BitVec 2) :
    (s.controlStarted sel).M = s.M := rfl

@[simp] theorem State.controlStarted_IDX (s : State) (sel : BitVec 2) :
    (s.controlStarted sel).IDX = 0 := rfl

@[simp] theorem State.controlStarted_UF (s : State) (sel : BitVec 2) :
    (s.controlStarted sel).UF = sel := rfl

@[simp] theorem State.controlStarted_BUSY (s : State) (sel : BitVec 2) :
    (s.controlStarted sel).BUSY = true := rfl

@[simp] theorem State.controlStarted_DONE (s : State) (sel : BitVec 2) :
    (s.controlStarted sel).DONE = false := rfl

@[simp] theorem State.controlStarted_program (s : State) (sel : BitVec 2) :
    (s.controlStarted sel).program = s.program := rfl

@[simp] theorem State.controlStarted_rstN (s : State) (sel : BitVec 2) :
    (s.controlStarted sel).rstN = s.rstN := rfl

@[simp] theorem State.controlStarted_readLog (s : State) (sel : BitVec 2) :
    (s.controlStarted sel).readLog = s.readLog := rfl

@[simp] theorem State.controlStarted_resets (s : State) (sel : BitVec 2) :
    (s.controlStarted sel).resets = s.resets := rfl

/-! ### controlReset -/

@[simp] theorem State.controlReset_S (s : State) :
    (s.controlReset).S = s.S := rfl

@[simp] theorem State.controlReset_M (s : State) :
    (s.controlReset).M = s.M := rfl

@[simp] theorem State.controlReset_IDX (s : State) :
    (s.controlReset).IDX = 0 := rfl

@[simp] theorem State.controlReset_UF (s : State) :
    (s.controlReset).UF = 0 := rfl

@[simp] theorem State.controlReset_BUSY (s : State) :
    (s.controlReset).BUSY = false := rfl

@[simp] theorem State.controlReset_DONE (s : State) :
    (s.controlReset).DONE = false := rfl

@[simp] theorem State.controlReset_program (s : State) :
    (s.controlReset).program = s.program := rfl

@[simp] theorem State.controlReset_rstN (s : State) :
    (s.controlReset).rstN = s.rstN := rfl

@[simp] theorem State.controlReset_readLog (s : State) :
    (s.controlReset).readLog = s.readLog := rfl

@[simp] theorem State.controlReset_resets (s : State) :
    (s.controlReset).resets = s.resets := rfl

/-! ### writeS -/

@[simp] theorem State.writeS_S (s : State) (i : Fin 8) (v : Word) :
    (s.writeS i v).S = s.S.set i v := rfl

@[simp] theorem State.writeS_M (s : State) (i : Fin 8) (v : Word) :
    (s.writeS i v).M = s.M := rfl

@[simp] theorem State.writeS_IDX (s : State) (i : Fin 8) (v : Word) :
    (s.writeS i v).IDX = s.IDX := rfl

@[simp] theorem State.writeS_UF (s : State) (i : Fin 8) (v : Word) :
    (s.writeS i v).UF = s.UF := rfl

@[simp] theorem State.writeS_BUSY (s : State) (i : Fin 8) (v : Word) :
    (s.writeS i v).BUSY = s.BUSY := rfl

@[simp] theorem State.writeS_DONE (s : State) (i : Fin 8) (v : Word) :
    (s.writeS i v).DONE = s.DONE := rfl

@[simp] theorem State.writeS_program (s : State) (i : Fin 8) (v : Word) :
    (s.writeS i v).program = s.program := rfl

@[simp] theorem State.writeS_rstN (s : State) (i : Fin 8) (v : Word) :
    (s.writeS i v).rstN = s.rstN := rfl

@[simp] theorem State.writeS_readLog (s : State) (i : Fin 8) (v : Word) :
    (s.writeS i v).readLog = s.readLog := rfl

@[simp] theorem State.writeS_resets (s : State) (i : Fin 8) (v : Word) :
    (s.writeS i v).resets = s.resets := rfl

/-! ### writeM -/

@[simp] theorem State.writeM_S (s : State) (i : Fin 64) (v : Word) :
    (s.writeM i v).S = s.S := rfl

@[simp] theorem State.writeM_M (s : State) (i : Fin 64) (v : Word) :
    (s.writeM i v).M = s.M.set i v := rfl

@[simp] theorem State.writeM_IDX (s : State) (i : Fin 64) (v : Word) :
    (s.writeM i v).IDX = s.IDX := rfl

@[simp] theorem State.writeM_UF (s : State) (i : Fin 64) (v : Word) :
    (s.writeM i v).UF = s.UF := rfl

@[simp] theorem State.writeM_BUSY (s : State) (i : Fin 64) (v : Word) :
    (s.writeM i v).BUSY = s.BUSY := rfl

@[simp] theorem State.writeM_DONE (s : State) (i : Fin 64) (v : Word) :
    (s.writeM i v).DONE = s.DONE := rfl

@[simp] theorem State.writeM_program (s : State) (i : Fin 64) (v : Word) :
    (s.writeM i v).program = s.program := rfl

@[simp] theorem State.writeM_rstN (s : State) (i : Fin 64) (v : Word) :
    (s.writeM i v).rstN = s.rstN := rfl

@[simp] theorem State.writeM_readLog (s : State) (i : Fin 64) (v : Word) :
    (s.writeM i v).readLog = s.readLog := rfl

@[simp] theorem State.writeM_resets (s : State) (i : Fin 64) (v : Word) :
    (s.writeM i v).resets = s.resets := rfl

/-! ### logRead -/

@[simp] theorem State.logRead_S (s : State) (v : Word) :
    (s.logRead v).S = s.S := rfl

@[simp] theorem State.logRead_M (s : State) (v : Word) :
    (s.logRead v).M = s.M := rfl

@[simp] theorem State.logRead_IDX (s : State) (v : Word) :
    (s.logRead v).IDX = s.IDX := rfl

@[simp] theorem State.logRead_UF (s : State) (v : Word) :
    (s.logRead v).UF = s.UF := rfl

@[simp] theorem State.logRead_BUSY (s : State) (v : Word) :
    (s.logRead v).BUSY = s.BUSY := rfl

@[simp] theorem State.logRead_DONE (s : State) (v : Word) :
    (s.logRead v).DONE = s.DONE := rfl

@[simp] theorem State.logRead_program (s : State) (v : Word) :
    (s.logRead v).program = s.program := rfl

@[simp] theorem State.logRead_rstN (s : State) (v : Word) :
    (s.logRead v).rstN = s.rstN := rfl

@[simp] theorem State.logRead_readLog (s : State) (v : Word) :
    (s.logRead v).readLog = s.readLog ++ [v] := rfl

@[simp] theorem State.logRead_resets (s : State) (v : Word) :
    (s.logRead v).resets = s.resets := rfl

/-! ### nextAction -/

@[simp] theorem State.nextAction_S (s : State) :
    (s.nextAction).S = s.S := rfl

@[simp] theorem State.nextAction_M (s : State) :
    (s.nextAction).M = s.M := rfl

@[simp] theorem State.nextAction_IDX (s : State) :
    (s.nextAction).IDX = s.IDX := rfl

@[simp] theorem State.nextAction_UF (s : State) :
    (s.nextAction).UF = s.UF := rfl

@[simp] theorem State.nextAction_BUSY (s : State) :
    (s.nextAction).BUSY = s.BUSY := rfl

@[simp] theorem State.nextAction_DONE (s : State) :
    (s.nextAction).DONE = s.DONE := rfl

@[simp] theorem State.nextAction_program (s : State) :
    (s.nextAction).program = s.program.tail := rfl

@[simp] theorem State.nextAction_rstN (s : State) :
    (s.nextAction).rstN = s.rstN := rfl

@[simp] theorem State.nextAction_readLog (s : State) :
    (s.nextAction).readLog = s.readLog := rfl

@[simp] theorem State.nextAction_resets (s : State) :
    (s.nextAction).resets = s.resets := rfl

/-! ### nextLevel -/

@[simp] theorem State.nextLevel_S (s : State) :
    (s.nextLevel).S = s.S := rfl

@[simp] theorem State.nextLevel_M (s : State) :
    (s.nextLevel).M = s.M := rfl

@[simp] theorem State.nextLevel_IDX (s : State) :
    (s.nextLevel).IDX = s.IDX := rfl

@[simp] theorem State.nextLevel_UF (s : State) :
    (s.nextLevel).UF = s.UF := rfl

@[simp] theorem State.nextLevel_BUSY (s : State) :
    (s.nextLevel).BUSY = s.BUSY := rfl

@[simp] theorem State.nextLevel_DONE (s : State) :
    (s.nextLevel).DONE = s.DONE := rfl

@[simp] theorem State.nextLevel_program (s : State) :
    (s.nextLevel).program = s.program := rfl

@[simp] theorem State.nextLevel_rstN (s : State) :
    (s.nextLevel).rstN = s.rstN.tail := rfl

@[simp] theorem State.nextLevel_readLog (s : State) :
    (s.nextLevel).readLog = s.readLog := rfl

@[simp] theorem State.nextLevel_resets (s : State) :
    (s.nextLevel).resets = s.resets := rfl

/-! ### startCompress -/

@[simp] theorem startCompress_S (s : State) (sel : BitVec 2) :
    (startCompress s sel).S = s.S := rfl

@[simp] theorem startCompress_M (s : State) (sel : BitVec 2) :
    (startCompress s sel).M = s.M := rfl

@[simp] theorem startCompress_IDX (s : State) (sel : BitVec 2) :
    (startCompress s sel).IDX = 0 := rfl

@[simp] theorem startCompress_UF (s : State) (sel : BitVec 2) :
    (startCompress s sel).UF = sel := rfl

@[simp] theorem startCompress_BUSY (s : State) (sel : BitVec 2) :
    (startCompress s sel).BUSY = true := rfl

@[simp] theorem startCompress_DONE (s : State) (sel : BitVec 2) :
    (startCompress s sel).DONE = false := rfl

@[simp] theorem startCompress_program (s : State) (sel : BitVec 2) :
    (startCompress s sel).program = s.program := rfl

@[simp] theorem startCompress_rstN (s : State) (sel : BitVec 2) :
    (startCompress s sel).rstN = s.rstN := rfl

@[simp] theorem startCompress_readLog (s : State) (sel : BitVec 2) :
    (startCompress s sel).readLog = s.readLog := rfl

@[simp] theorem startCompress_resets (s : State) (sel : BitVec 2) :
    (startCompress s sel).resets = s.resets := rfl

/-! ### resetEdge -/

@[simp] theorem resetEdge_S (engine : Nat) (s : State) :
    (resetEdge engine s).S = drawnS engine s.resets := rfl

@[simp] theorem resetEdge_M (engine : Nat) (s : State) :
    (resetEdge engine s).M = drawnM engine s.resets := rfl

@[simp] theorem resetEdge_IDX (engine : Nat) (s : State) :
    (resetEdge engine s).IDX = 0 := rfl

@[simp] theorem resetEdge_UF (engine : Nat) (s : State) :
    (resetEdge engine s).UF = 0 := rfl

@[simp] theorem resetEdge_BUSY (engine : Nat) (s : State) :
    (resetEdge engine s).BUSY = false := rfl

@[simp] theorem resetEdge_DONE (engine : Nat) (s : State) :
    (resetEdge engine s).DONE = false := rfl

@[simp] theorem resetEdge_program (engine : Nat) (s : State) :
    (resetEdge engine s).program = heldThroughReset s.program := rfl

@[simp] theorem resetEdge_rstN (engine : Nat) (s : State) :
    (resetEdge engine s).rstN = s.rstN := rfl

@[simp] theorem resetEdge_readLog (engine : Nat) (s : State) :
    (resetEdge engine s).readLog = s.readLog := rfl

@[simp] theorem resetEdge_resets (engine : Nat) (s : State) :
    (resetEdge engine s).resets = s.resets + 1 := rfl

/-! ### controlAdvanced and the engine's step: the fields they leave alone -/

@[simp] theorem State.controlAdvanced_S (s : State) : s.controlAdvanced.S = s.S := by
  unfold State.controlAdvanced; dsimp only; split <;> rfl

@[simp] theorem State.controlAdvanced_M (s : State) : s.controlAdvanced.M = s.M := by
  unfold State.controlAdvanced; dsimp only; split <;> rfl

@[simp] theorem State.controlAdvanced_UF (s : State) : s.controlAdvanced.UF = s.UF := by
  unfold State.controlAdvanced; dsimp only; split <;> rfl

@[simp] theorem State.controlAdvanced_program (s : State) : s.controlAdvanced.program = s.program := by
  unfold State.controlAdvanced; dsimp only; split <;> rfl

@[simp] theorem State.controlAdvanced_rstN (s : State) : s.controlAdvanced.rstN = s.rstN := by
  unfold State.controlAdvanced; dsimp only; split <;> rfl

@[simp] theorem State.controlAdvanced_readLog (s : State) : s.controlAdvanced.readLog = s.readLog := by
  unfold State.controlAdvanced; dsimp only; split <;> rfl

@[simp] theorem State.controlAdvanced_resets (s : State) : s.controlAdvanced.resets = s.resets := by
  unfold State.controlAdvanced; dsimp only; split <;> rfl

@[simp] theorem engineStep_M (s : State) : (engineStep s).M = s.M := by
  simp [engineStep]

@[simp] theorem engineStep_UF (s : State) : (engineStep s).UF = s.UF := by
  simp [engineStep]

@[simp] theorem engineStep_program (s : State) : (engineStep s).program = s.program := by
  simp [engineStep]

@[simp] theorem engineStep_rstN (s : State) : (engineStep s).rstN = s.rstN := by
  simp [engineStep]

@[simp] theorem engineStep_readLog (s : State) : (engineStep s).readLog = s.readLog := by
  simp [engineStep]

@[simp] theorem engineStep_resets (s : State) : (engineStep s).resets = s.resets := by
  simp [engineStep]

@[simp] theorem engineEdge_M (s : State) : (engineEdge s).M = s.M := by
  unfold engineEdge; split <;> simp

@[simp] theorem engineEdge_UF (s : State) : (engineEdge s).UF = s.UF := by
  unfold engineEdge; split <;> simp

@[simp] theorem engineEdge_program (s : State) : (engineEdge s).program = s.program := by
  unfold engineEdge; split <;> simp

@[simp] theorem engineEdge_rstN (s : State) : (engineEdge s).rstN = s.rstN := by
  unfold engineEdge; split <;> simp

@[simp] theorem engineEdge_readLog (s : State) : (engineEdge s).readLog = s.readLog := by
  unfold engineEdge; split <;> simp

@[simp] theorem engineEdge_resets (s : State) : (engineEdge s).resets = s.resets := by
  unfold engineEdge; split <;> simp

@[simp] theorem State.controlAdvanced_IDX (s : State) :
    s.controlAdvanced.IDX = s.IDX + BitVec.ofNat 7 (unrollFactor s.UF) := by
  unfold State.controlAdvanced; dsimp only; split <;> rfl

@[simp] theorem State.controlAdvanced_BUSY (s : State) :
    s.controlAdvanced.BUSY =
      (!(s.IDX + BitVec.ofNat 7 (unrollFactor s.UF) == 64#7) && s.BUSY) := by
  unfold State.controlAdvanced; dsimp only; split <;> simp_all

@[simp] theorem State.controlAdvanced_DONE (s : State) :
    s.controlAdvanced.DONE =
      ((s.IDX + BitVec.ofNat 7 (unrollFactor s.UF) == 64#7) || s.DONE) := by
  unfold State.controlAdvanced; dsimp only; split <;> simp_all

@[simp] theorem engineStep_S (s : State) :
    (engineStep s).S = loopBody s.UF s.M s.IDX.toNat s.S := by
  simp [engineStep]

@[simp] theorem engineStep_IDX (s : State) :
    (engineStep s).IDX = s.IDX + BitVec.ofNat 7 (unrollFactor s.UF) := by
  simp [engineStep]

@[simp] theorem engineStep_BUSY (s : State) :
    (engineStep s).BUSY =
      (!(s.IDX + BitVec.ofNat 7 (unrollFactor s.UF) == 64#7) && s.BUSY) := by
  simp [engineStep]

@[simp] theorem engineStep_DONE (s : State) :
    (engineStep s).DONE =
      ((s.IDX + BitVec.ofNat 7 (unrollFactor s.UF) == 64#7) || s.DONE) := by
  simp [engineStep]

/-- The engine step that makes IDX = 64 (R121). -/
theorem engineStep_last {s : State} (h : (engineStep s).IDX = 64) :
    (engineStep s).BUSY = false ∧ (engineStep s).DONE = true := by
  simp_all

/-- An engine step that does not (R121). -/
theorem engineStep_not_last {s : State} (h : (engineStep s).IDX ≠ 64) :
    (engineStep s).BUSY = s.BUSY ∧ (engineStep s).DONE = s.DONE := by
  simp_all

theorem engineEdge_of_busy {s : State} (h : s.BUSY = true) : engineEdge s = engineStep s := by
  simp [engineEdge, h]

theorem engineEdge_of_idle {s : State} (h : s.BUSY = false) : engineEdge s = s := by
  simp [engineEdge, h]

/-! ### The engine's step does not see the host's lists -/

theorem engineStep_nextLevel (s : State) : engineStep s.nextLevel = (engineStep s).nextLevel := by
  unfold engineStep State.controlAdvanced State.nextLevel; dsimp only; split <;> rfl

theorem engineEdge_nextLevel (s : State) : engineEdge s.nextLevel = (engineEdge s).nextLevel := by
  unfold engineEdge; split <;> simp_all [engineStep_nextLevel]

theorem engineStep_withProgram (s : State) (p : List HostAction) :
    engineStep { s with program := p } = { engineStep s with program := p } := by
  unfold engineStep State.controlAdvanced; dsimp only; split <;> rfl

end Sys2Proof.Machine
end

