-- ==== Sys2Proof/Laws/Ops.lean ====
section
/-! SUPPORT. What each shared operation can do, said once: the address map at the named addresses,
reads after writes, acceptance and hold, the cases of a step. -/

namespace Sys2Proof.Machine

/-! ## The working registers by index -/

@[simp] theorem HashState.get_set_self (s : HashState) (i : Fin 8) (v : Word) :
    (s.set i v).get i = v := by
  fin_cases i <;> rfl

theorem HashState.get_set_of_ne (s : HashState) {i j : Fin 8} (v : Word) (h : i ≠ j) :
    (s.set i v).get j = s.get j := by
  fin_cases i <;> fin_cases j <;> first | exact absurd rfl h | rfl

/-- Two register files that agree at every index are equal. -/
theorem HashState.ext_get {s t : HashState} (h : ∀ i, s.get i = t.get i) : s = t := by
  cases s; cases t
  have := h 0; have := h 1; have := h 2; have := h 3
  have := h 4; have := h 5; have := h 6; have := h 7
  simp_all [HashState.get]

/-! ## The address map at the named addresses -/

@[simp] theorem target_stateAddr (i : Fin 8) : target (stateAddr i) = .stateWord i := by
  revert i; decide

@[simp] theorem target_ctrlAddr : target ctrlAddr = .ctrl := by decide

@[simp] theorem target_statusAddr : target statusAddr = .status := by decide

@[simp] theorem target_schedAddr (i : Fin 64) : target (schedAddr i) = .sched i := by
  revert i; decide

@[simp] theorem target_ktabAddr (i : Fin 64) : target (ktabAddr i) = .ktab i := by
  revert i; decide

theorem eq_stateAddr_of_target {addr : Addr} {i : Fin 8} (h : target addr = .stateWord i) :
    addr = stateAddr i := by
  revert addr i; decide

theorem eq_schedAddr_of_target {addr : Addr} {i : Fin 64} (h : target addr = .sched i) :
    addr = schedAddr i := by
  have all : ∀ a : Addr, ∀ j, target a = .sched j → a = schedAddr j := by
    intro a
    have : ∀ a : Addr, (match target a with | .sched j => decide (a = schedAddr j) | _ => true) = true := by
      decide
    intro j hj
    have := this a
    rw [hj] at this
    exact of_decide_eq_true this
  exact all addr i h

/-! ## Reads -/

@[simp] theorem memRead_stateAddr (s : State) (i : Fin 8) : memRead s (stateAddr i) = s.S.get i := by
  simp [memRead]

@[simp] theorem memRead_ctrlAddr (s : State) : memRead s ctrlAddr = 0 := by simp [memRead]

@[simp] theorem memRead_statusAddr (s : State) :
    memRead s statusAddr = statusWord s.IDX s.UF s.DONE s.BUSY := by simp [memRead]

@[simp] theorem memRead_schedAddr (s : State) (i : Fin 64) : memRead s (schedAddr i) = s.M[i] := by
  simp [memRead]

@[simp] theorem memRead_ktabAddr (s : State) (i : Fin 64) : memRead s (ktabAddr i) = kTable[i] := by
  simp [memRead]

/-! ## Writes: the fields a write leaves alone -/

theorem memWrite_program (s : State) (addr : Addr) (v : Word) :
    (memWrite s addr v).program = s.program := by
  unfold memWrite command; split <;> first | rfl | (split <;> rfl)

theorem memWrite_rstN (s : State) (addr : Addr) (v : Word) :
    (memWrite s addr v).rstN = s.rstN := by
  unfold memWrite command; split <;> first | rfl | (split <;> rfl)

theorem memWrite_readLog (s : State) (addr : Addr) (v : Word) :
    (memWrite s addr v).readLog = s.readLog := by
  unfold memWrite command; split <;> first | rfl | (split <;> rfl)

theorem memWrite_resets (s : State) (addr : Addr) (v : Word) :
    (memWrite s addr v).resets = s.resets := by
  unfold memWrite command; split <;> first | rfl | (split <;> rfl)

@[simp] theorem memWrite_ctrlAddr (s : State) (v : Word) : memWrite s ctrlAddr v = command s v := by
  simp [memWrite]

@[simp] theorem memWrite_stateAddr (s : State) (i : Fin 8) (v : Word) :
    memWrite s (stateAddr i) v = s.writeS i v := by
  simp [memWrite]

@[simp] theorem memWrite_schedAddr (s : State) (i : Fin 64) (v : Word) :
    memWrite s (schedAddr i) v = s.writeM i v := by
  simp [memWrite]

/-- A write away from CTRL leaves every control field alone. -/
theorem memWrite_control {s : State} {addr : Addr} (v : Word) (h : target addr ≠ .ctrl) :
    (memWrite s addr v).IDX = s.IDX ∧ (memWrite s addr v).UF = s.UF ∧
      (memWrite s addr v).BUSY = s.BUSY ∧ (memWrite s addr v).DONE = s.DONE := by
  unfold memWrite; split <;> simp_all

/-! ## Acceptance and hold -/

theorem reqReady_of_idle {s : State} (h : s.BUSY = false) (we : Bool) (addr : Addr) :
    reqReady s we addr = true := by
  simp [reqReady, h]

theorem reqReady_of_busy {s : State} (h : s.BUSY = true) (we : Bool) (addr : Addr) :
    reqReady s we addr = (!we && addr == statusAddr) := by
  simp [reqReady, h]

/-- What an edge with a read on the port does, by whether the read is accepted. -/
theorem readEdge_cases (s : State) (addr : Addr) :
    (reqReady s false addr = true ∧
      readEdge s addr = ((engineEdge s).logRead (memRead s addr)).nextAction) ∨
    (reqReady s false addr = false ∧ s.BUSY = true ∧ readEdge s addr = engineStep s) := by
  cases hr : reqReady s false addr
  · right
    have hb : s.BUSY = true := by
      cases hb : s.BUSY
      · simp [reqReady_of_idle hb] at hr
      · rfl
    simp [readEdge, hr, hb, engineEdge_of_busy hb]
  · left; simp [readEdge, hr]

/-- What an edge with a write on the port does: accepted exactly while idle. -/
theorem writeEdge_cases (s : State) (addr : Addr) (effect : State → State) :
    (s.BUSY = false ∧ writeEdge s addr effect = (effect s).nextAction) ∨
    (s.BUSY = true ∧ writeEdge s addr effect = engineStep s) := by
  cases hb : s.BUSY
  · left; simp [writeEdge, reqReady_of_idle hb]
  · right; simp [writeEdge, reqReady_of_busy hb, engineEdge_of_busy hb]

/-! ## The cases of exec and of step -/

/-- Every instruction is one read edge or one write edge. -/
theorem exec_cases (i : Instr) (s : State) :
    (∃ addr, exec i s = .next (readEdge s addr)) ∨
    (∃ addr effect, exec i s = .next (writeEdge s addr effect)) := by
  cases i
  case rd addr _ => exact .inl ⟨addr, rfl⟩
  all_goals exact .inr ⟨_, _, rfl⟩

/-- What a presented transaction does, without its decoding: RD is a read edge, WR to any address
(CTRL and its commands among them) a write edge. -/
theorem exec_decodeRequest (r : Request) (s : State) :
    exec (decodeRequest r) s =
      .next (if r.we then writeEdge s r.addr fun t => memWrite t r.addr r.wdata
             else readEdge s r.addr) := by
  obtain ⟨we, addr, wdata⟩ := r
  simp only [decodeRequest, decodeT, fieldWe_toWord, fieldAddr_toWord, fieldWdata_toWord]
  cases we
  · rfl
  · by_cases hc : addr = ctrlAddr
    · subst hc
      have sel4 : ∀ b : BitVec 2, b = 0 ∨ b = 1 ∨ b = 2 ∨ b = 3 := by decide
      simp only [if_true, decodeC, memWrite_ctrlAddr]
      cases hs : fieldStart wdata
      · simp [exec, execNop, command, hs]
      · rcases sel4 (fieldUnrollSel wdata) with h | h | h | h <;>
          simp [exec, execCompress1x, execCompress2x, execCompress4x, execCompress8x, command, hs, h]
    · simp [hc, exec, execWr]

/-- The cases of an edge with `rst_n` = 1. -/
theorem portEdge_cases (s : State) :
    (∃ addr, (∃ r rest, s.program = .present r :: rest ∧ r.we = false ∧ r.addr = addr) ∧
      portEdge s = .next (readEdge s addr)) ∨
    (∃ r rest, s.program = .present r :: rest ∧ r.we = true ∧
      portEdge s = .next (writeEdge s r.addr fun t => memWrite t r.addr r.wdata)) ∨
    ((∃ rest, s.program = .poll :: rest) ∧ s.BUSY = false ∧
      portEdge s = .next (readEdge s statusAddr)) ∨
    ((∃ rest, s.program = .idle :: rest) ∧ portEdge s = .next (engineEdge s).nextAction) ∨
    ((s.program = [] ∨ (∃ rest, s.program = .poll :: rest) ∧ s.BUSY = true) ∧
      portEdge s = .next (engineEdge s)) := by
  rcases hp : s.program with _ | ⟨a, rest⟩
  · simp [portEdge, hp]
  · cases a with
    | present r =>
      have := exec_decodeRequest r s
      cases hw : r.we <;> simp [portEdge, hp, hw, this]
    | poll => cases hb : s.BUSY <;> simp [portEdge, hp, hb, exec, execRd]
    | idle => simp [portEdge, hp]

/-- What an edge of an engine can be: with `rst_n` = 1 what the port shows, else a cycle under reset. -/
theorem clockEdge_cases (engine : Nat) (s : State) :
    (s.rstLevel = true ∧ clockEdge engine s = portEdge s.nextLevel) ∨
    (s.rstLevel = false ∧ clockEdge engine s = .next (resetEdge engine s.nextLevel)) := by
  cases h : s.rstLevel <;> simp [clockEdge, h]

/-- What a step can be: the one engine's edge. -/
theorem step_cases (s : State) :
    (s.rstLevel = true ∧ step s = portEdge s.nextLevel) ∨
    (s.rstLevel = false ∧ step s = .next (resetEdge 0 s.nextLevel)) := clockEdge_cases 0 s

/-- What a step of a list of engines can be: one engine's edge in its own place, or nothing. -/
theorem stepReplica_of_edge {engines : List State} {k : Nat} {s t : State}
    (hs : engines[k]? = some s) (ht : clockEdge k s = .next t) :
    stepReplica engines k = .next (engines.set k t) := by
  simp only [stepReplica, hs, ht]

theorem stepReplica_of_none {engines : List State} {k : Nat} (h : engines[k]? = none) :
    stepReplica engines k = .next engines := by
  simp only [stepReplica, h]

end Sys2Proof.Machine
end

