-- ==== Sys2Proof/Laws/PerInstr.lean ====
section
/-! SUPPORT. The family OpcodeRow: the word of an instruction, whatever its operands, selects exactly
one row of the opcode map of its format (R84), and that row is the instruction's own. -/

namespace Sys2Proof.Laws.OpcodeRow

/-- The mnemonics of the rows that an encoded word selects. -/
def rowsOf : EncodedWord → List String
  | .formatT t => (opcodeRowsT.filter (·.selects t)).map (·.mnemonic)
  | .formatC v => (opcodeRowsC.filter (·.selects v)).map (·.mnemonic)

/-- The word of `i` selects the row of `i` and no other. -/
def Statement (i : Instr) : Prop := rowsOf (encode i) = [i.mnemonic]

/-- A format T word selects by its bit 40. -/
theorem rowsOf_formatT (t : BitVec 41) :
    rowsOf (.formatT t) = if fieldWe t then ["WR"] else ["RD"] := by
  have hm : t &&& 0x10000000000 = if fieldWe t then 0x10000000000 else 0 := by
    ext i hi
    by_cases h40 : i = 40
    · subst h40
      have : fieldWe t = t[40] := by simp [fieldWe]
      rw [this]
      cases h : t[40] <;> simp [h]
    · have hz : (0x10000000000 : BitVec 41)[i] = false := by
        change (BitVec.ofNat 41 0x10000000000)[i] = false
        rw [← BitVec.getLsbD_eq_getElem hi, BitVec.getLsbD_ofNat]
        rw [show (0x10000000000 : Nat) = 2 ^ 40 from rfl, Nat.testBit_two_pow_of_ne (Ne.symm h40)]
        simp
      rw [BitVec.getElem_and, hz, Bool.and_false]
      split
      · exact hz.symm
      · simp
  simp only [rowsOf, opcodeRowsT, OpcodeRow.selects, List.filter, hm]
  cases fieldWe t <;> rfl

/-- A format C word selects by its low three bits. -/
theorem rowsOf_formatC (v : Word) :
    rowsOf (.formatC v) = rowsOf (.formatC ((v.extractLsb' 0 3).setWidth 32)) := by
  have low : ∀ m : Word, (∀ i, 3 ≤ i → m.getLsbD i = false) →
      v &&& m = (v.extractLsb' 0 3).setWidth 32 &&& m := by
    intro m hm
    ext i hi
    have hmi := hm i
    rw [BitVec.getLsbD_eq_getElem hi] at hmi
    by_cases h3 : i < 3
    · simp [h3, BitVec.getLsbD_eq_getElem hi]
    · simp [hmi (by omega)]
  have high : ∀ i, 3 ≤ i → (7#32).getLsbD i = false ∧ (1#32).getLsbD i = false := by
    intro i hi
    constructor
    · rw [BitVec.getLsbD_ofNat, show (7 : Nat) = 2 ^ 3 - 1 from rfl, Nat.testBit_two_pow_sub_one]
      simp; omega
    · rw [BitVec.getLsbD_one]; simp; omega
  have h7 := low 7 fun i hi => (high i hi).1
  have h1 := low 1 fun i hi => (high i hi).2
  simp only [rowsOf, opcodeRowsC, OpcodeRow.selects, List.filter, h7, h1]

/-- The low three bits of a command word. -/
theorem low_commandWord (reserved : BitVec 29) (sel : BitVec 2) (start : Bool) :
    (commandWord reserved sel start).extractLsb' 0 3 = sel ++ BitVec.ofBool start := by
  have h0 := fieldStart_commandWord reserved sel start
  have h1 := fieldUnrollSel_commandWord reserved sel start
  simp only [fieldStart] at h0
  simp only [fieldUnrollSel] at h1
  ext i hi
  rw [BitVec.getElem_append]
  by_cases h : i = 0
  · subst h; simp only [BitVec.getElem_extractLsb']; simpa using h0
  · have := congrArg (fun b : BitVec 2 => b.getLsbD (i - 1)) h1
    simp only [BitVec.getLsbD_extractLsb', show i - 1 < 2 by omega, decide_true, Bool.true_and,
      show 1 + (i - 1) = 0 + i by omega] at this
    rw [BitVec.getElem_extractLsb', this, BitVec.getLsbD_eq_getElem (by omega)]
    simp [show ¬ i < 1 by omega]

/-- A command word with START = 1 selects the row of its unroll select. -/
theorem rowsOf_commandWord (reserved : BitVec 29) (sel : BitVec 2) :
    rowsOf (.formatC (commandWord reserved sel true)) =
      if sel = 0 then ["COMPRESS_1X"] else if sel = 1 then ["COMPRESS_2X"]
      else if sel = 2 then ["COMPRESS_4X"] else ["COMPRESS_8X"] := by
  rw [rowsOf_formatC, low_commandWord]
  revert sel; decide

theorem rd (addr : Addr) (unused : Word) : Statement (.rd addr unused) := by
  simp [Statement, encode, rowsOf_formatT, fieldWe_toWord, Instr.mnemonic]

theorem wr (addr : Addr) (data : Word) : Statement (.wr addr data) := by
  simp [Statement, encode, rowsOf_formatT, fieldWe_toWord, Instr.mnemonic]

theorem compress1x (reserved : BitVec 29) : Statement (.compress1x reserved) := by
  simp [Statement, encode, rowsOf_commandWord, Instr.mnemonic]

theorem compress2x (reserved : BitVec 29) : Statement (.compress2x reserved) := by
  simp [Statement, encode, rowsOf_commandWord, Instr.mnemonic]

theorem compress4x (reserved : BitVec 29) : Statement (.compress4x reserved) := by
  simp [Statement, encode, rowsOf_commandWord, Instr.mnemonic]

theorem compress8x (reserved : BitVec 29) : Statement (.compress8x reserved) := by
  simp [Statement, encode, rowsOf_commandWord, Instr.mnemonic]

theorem nop (unused : BitVec 31) : Statement (.nop unused) := by
  have hlow : ((unused ++ BitVec.ofBool false).setWidth 32).extractLsb' 0 3 =
      unused.extractLsb' 0 2 ++ 0#1 := by
    ext i hi
    rw [BitVec.getElem_append]
    simp only [BitVec.getElem_extractLsb', BitVec.getLsbD_setWidth, BitVec.getLsbD_append]
    by_cases h : i < 1 <;> simp [h, show i < 32 by omega]
  rw [Statement, encode, rowsOf_formatC, hlow, Instr.mnemonic]
  generalize unused.extractLsb' 0 2 = b
  revert b; decide

end Sys2Proof.Laws.OpcodeRow
end

