-- ==== Sys2Proof/Laws/Round.lean ====
section
/-! SUPPORT. Consecutive rounds compose; the tables inside their range. -/

namespace Sys2Proof.Machine

@[simp] theorem roundsFrom_zero (m : Schedule) (i : Nat) (s : HashState) :
    roundsFrom m i 0 s = s := rfl

theorem roundsFrom_succ (m : Schedule) (i n : Nat) (s : HashState) :
    roundsFrom m i (n + 1) s = roundAt m (i + n) (roundsFrom m i n s) := rfl

/-- n + k rounds from i are n rounds from i and then k rounds from i + n. -/
theorem roundsFrom_add (m : Schedule) (i n k : Nat) (s : HashState) :
    roundsFrom m i (n + k) s = roundsFrom m (i + n) k (roundsFrom m i n s) := by
  induction k with
  | zero => rfl
  | succ k ih => rw [← Nat.add_assoc, roundsFrom_succ, roundsFrom_succ, ih, Nat.add_assoc]

theorem kWord_of_lt {i : Nat} (h : i < 64) : kWord i = kTable[i] := by simp [kWord, h]

theorem mWord_of_lt (m : Schedule) {i : Nat} (h : i < 64) : mWord m i = m[i] := by simp [mWord, h]

end Sys2Proof.Machine
end

