-- ==== Sys2Proof/Tests/Slice0.lean ====
section
/-! SUPPORT. The model's own tests, each a named theorem on fixed values, and for every statement of
Certificates/Slice0/Obligations.lean with hypotheses a witness that meets them.
Expected values are those of spec/95_test_vectors.md (cited by their ids) or of the rule cited. -/

namespace Sys2Proof.Tests

open Sys2Proof.Machine

/-! ## Helpers -/

/-- A field of the next state that an outcome answers. -/
def nextField {α : Type} (outcome : Host.Outcome State Fault Refusal) (field : State → α) : Option α :=
  match outcome with
  | .next t => some (field t)
  | _ => none

/-- What the host reads with one read of `addr`. -/
def readBack (outcome : Host.Outcome State Fault Refusal) (addr : Addr) : Option Word :=
  nextField outcome fun t => memRead t addr

/-- The initial hash value of SHA-256 (G2 of spec/95). -/
def initialHash : HashState :=
  ⟨0x6a09e667, 0xbb67ae85, 0x3c6ef372, 0xa54ff53a, 0x510e527f, 0x9b05688c, 0x1f83d9ab, 0x5be0cd19⟩

/-- The schedule of a one-block message by the external expansion (G4 of spec/95), newest word first. -/
def expandBlock : Nat → List Word → List Word
  | 0, words => words
  | n + 1, words =>
    let s0 := words.getD 14 0
    let s1 := words.getD 1 0
    expandBlock n
      (((rotr s1 17 ^^^ rotr s1 19 ^^^ (s1 >>> 10)) + words.getD 6 0
        + (rotr s0 7 ^^^ rotr s0 18 ^^^ (s0 >>> 3)) + words.getD 15 0) :: words)

/-- The schedule of "abc" (E1 of spec/95). -/
def abcSchedule : Schedule :=
  let words := expandBlock 48 [0x18, 0, 0, 0, 0, 0, 0, 0, 0, 0, 0, 0, 0, 0, 0, 0x61626380]
  Vector.ofFn fun i => words.getD (63 - i.val) 0

/-- The idle engine with "abc" loaded. -/
def loaded : State := { State.reset with S := initialHash, M := abcSchedule }

/-- `loaded`, with COMPRESS_8X accepted and `idx` rounds behind it (S left as loaded). -/
def busyAt (idx : BitVec 7) : State := { loaded with IDX := idx, UF := 3, BUSY := true }

/-- `s` with one transaction on the port. -/
def withPresented (s : State) (r : Request) : State := { s with program := [.present r] }

/-! ## Well-formedness: every check refuses an ill-formed term -/

theorem test_wellformed_rd : (Instr.rd 0x09 0).wellFormed = true ∧
    (Instr.rd 0x09 0xdeadbeef).wellFormed = false := by decide
theorem test_wellformed_wr : (Instr.wr 0x00 0x6a09e667).wellFormed = true := by decide
theorem test_wellformed_compress1x : (Instr.compress1x 0).wellFormed = true ∧
    (Instr.compress1x 1).wellFormed = false := by decide
theorem test_wellformed_compress2x : (Instr.compress2x 0).wellFormed = true ∧
    (Instr.compress2x 0x1fffffff).wellFormed = false := by decide
theorem test_wellformed_compress4x : (Instr.compress4x 0).wellFormed = true ∧
    (Instr.compress4x 0x10000000).wellFormed = false := by decide
theorem test_wellformed_compress8x : (Instr.compress8x 0).wellFormed = true ∧
    (Instr.compress8x 2).wellFormed = false := by decide
theorem test_wellformed_nop : (Instr.nop 0).wellFormed = true ∧
    (Instr.nop 3).wellFormed = false := by decide

/-! ## Decoding: words written out from the layouts of R80 (V-E1 to V-E26)
A format T word is given in its 41 bits, or in whole bytes, 48 bits (log entry 10). -/

/-- we = 0, addr = 00001001, wdata (ignored): V-E19, V-E26. -/
theorem test_decode_rd :
    decodeTableWord 48 0b00000000_00001001_00000000_00000000_00000000_00000000 = some (.rd 0x09 0) ∧
    decodeTableWord 48 0x009deadbeef = some (.rd 0x09 0xdeadbeef) ∧
    decodeTableWord 41 0x0bf00000000 = some (.rd 0xbf 0) := by decide

/-- we = 1, addr, wdata: V-E21, V-E22, V-E23. -/
theorem test_decode_wr :
    decodeTableWord 48 0x1006a09e667 = some (.wr 0x00 0x6a09e667) ∧
    decodeTableWord 41 0x14061626380 = some (.wr 0x40 0x61626380) ∧
    decodeTableWord 48 0x17f00000018 = some (.wr 0x7f 0x00000018) := by decide

/-- START = 1, UNROLL_SEL = 00: V-E2, V-E10, V-E12. -/
theorem test_decode_compress1x :
    decodeTableWord 32 0b00000000_00000000_00000000_00000001 = some (.compress1x 0) ∧
    decodeTableWord 32 0x00000009 = some (.compress1x 1) ∧
    decodeTableWord 32 0x80000001 = some (.compress1x 0x10000000) := by decide

/-- START = 1, UNROLL_SEL = 01: V-E4, V-E15. -/
theorem test_decode_compress2x :
    decodeTableWord 32 0b00000000_00000000_00000000_00000011 = some (.compress2x 0) ∧
    decodeTableWord 32 0xfffffffb = some (.compress2x 0x1fffffff) := by decide

/-- START = 1, UNROLL_SEL = 10: V-E6. -/
theorem test_decode_compress4x :
    decodeTableWord 32 0b00000000_00000000_00000000_00000101 = some (.compress4x 0) := by decide

/-- START = 1, UNROLL_SEL = 11: V-E8, V-E11, V-E13. -/
theorem test_decode_compress8x :
    decodeTableWord 32 0b00000000_00000000_00000000_00000111 = some (.compress8x 0) ∧
    decodeTableWord 32 0x0000000f = some (.compress8x 1) ∧
    decodeTableWord 32 0xffffffff = some (.compress8x 0x1fffffff) := by decide

/-- START = 0: V-E1, V-E3, V-E5, V-E7, V-E9, V-E14, V-E16. -/
theorem test_decode_nop :
    decodeTableWord 32 0 = some (.nop 0) ∧ decodeTableWord 32 2 = some (.nop 1) ∧
    decodeTableWord 32 4 = some (.nop 2) ∧ decodeTableWord 32 6 = some (.nop 3) ∧
    decodeTableWord 32 8 = some (.nop 4) ∧ decodeTableWord 32 0xfffffff8 = some (.nop 0x7ffffffc) ∧
    decodeTableWord 32 0x100 = some (.nop 0x80) := by decide

/-- A transaction that writes CTRL is the command its data word is: V-E17, V-E18. -/
theorem test_decode_write_to_ctrl :
    decodeRequest (Request.ofWord 0x10800000007) = .compress8x 0 ∧
    decodeRequest (Request.ofWord 0x10800000000) = .nop 0 ∧
    decodeRequest (Request.ofWord 0x00800000007) = .rd 0x08 7 := by decide

/-- A number that is no word of either format is rejected by name (R80). -/
theorem test_decode_rejects :
    decodeTableWord 41 0x20000000000 = none ∧ decodeTableWord 48 0x20000000000 = none ∧ decodeTableWord 32 0x100000000 = none ∧
    decodeTableWord 16 0 = none := by decide

/-- The encoder, on the words of V-E12, V-E15, V-E23, V-E26. -/
theorem test_encode :
    encode (.compress1x 0x10000000) = .formatC 0x80000001 ∧
    encode (.compress2x 0x1fffffff) = .formatC 0xfffffffb ∧
    encode (.wr 0x7f 0x18) = .formatT 0x17f00000018 ∧
    encode (.rd 0x09 0xdeadbeef) = .formatT 0x009deadbeef := by decide

/-! ## Arithmetic -/

/-- V-H14, V-H32, V-H43, V-H44, V-H29. -/
theorem test_helpers :
    rotr 0x12345678 6 = 0xe048d159 ∧ ep1 0x12345678 = 0x3561abda ∧
    ch 0x6a09e667 0xbb67ae85 0x3c6ef372 = 0x3e67b715 ∧
    maj 0xffffffff 0x12345678 0x9abcdef0 = 0x9abcdef8 ∧ ep0 0x510e527f = 0x7ef0e1a9 := by decide

/-- V-R5: the five-term sum carries out of bit 31. V-R3: every addition overflows. -/
theorem test_round_fused :
    roundFused initialHash 0x428a2f98 0x61626380 =
      ⟨0x5d6aebcd, 0x6a09e667, 0xbb67ae85, 0x3c6ef372, 0xfa2a4622, 0x510e527f, 0x9b05688c, 0x1f83d9ab⟩ ∧
    (roundFused ⟨-1, -1, -1, -1, -1, -1, -1, -1⟩ (-1) (-1)).a = 0xfffffff9 ∧
    (roundFused ⟨-1, -1, -1, -1, -1, -1, -1, -1⟩ (-1) (-1)).e = 0xfffffffa := by decide

/-- V-R7 and V-R8, in the accumulated form of R107. -/
theorem test_round_accumulated :
    roundSeq ⟨0xd39a2165, 0x04d24d6c, 0xb85e2ce9, 0xb6ae8fff, 0xfb121210, 0x948d25b6, 0x961f4894, 0xb21bad3d⟩
        0xc67178f2 0x12b1edeb =
      ⟨0x506e3058, 0xd39a2165, 0x04d24d6c, 0xb85e2ce9, 0x5ef50f24, 0xfb121210, 0x948d25b6, 0x961f4894⟩ ∧
    roundSeq ⟨0xe5e8d346, 0, 0, 0x80000000, 0, 0, 0, 0x80000000⟩ 0 0 =
      ⟨0, 0xe5e8d346, 0, 0, 0, 0, 0, 0⟩ := by decide

/-- V-C1, with the source's own digest: after the host's feed-forward the words are those of
ba7816bf 8f01cfea 414140de 5dae2223 b00361a3 96177a9c b410ff61 f20015ad. -/
theorem test_compress_abc :
    (List.finRange 8).map (fun i => (compress initialHash abcSchedule).get i + initialHash.get i) =
      [0xba7816bf, 0x8f01cfea, 0x414140de, 0x5dae2223, 0xb00361a3, 0x96177a9c, 0xb410ff61, 0xf20015ad] := by
  decide +kernel

/-- V-C5. -/
theorem test_compress_small_integers :
    compress ⟨1, 2, 3, 4, 5, 6, 7, 8⟩ (Vector.ofFn fun i => BitVec.ofNat 32 i.val) =
      ⟨0xe75bf797, 0x1d94516f, 0xfe15a6b7, 0xc47f2a75, 0x9bcfaa83, 0xc00ad46f, 0xc0f20281, 0x13ef9c05⟩ := by
  decide +kernel

/-! ## RD and WR -/

/-- V-A5, V-A7, V-A8, V-A9 to V-A12, and the words at the edges of every row of R56's map. -/
theorem test_read_address_map :
    memRead loaded 0x00 = 0x6a09e667 ∧ memRead loaded 0x07 = 0x5be0cd19 ∧
    memRead loaded 0x08 = 0 ∧ memRead loaded 0x09 = 0 ∧
    memRead loaded 0x0a = 0 ∧ memRead loaded 0x3f = 0 ∧
    memRead loaded 0x40 = 0x61626380 ∧ memRead loaded 0x4f = 0x18 ∧ memRead loaded 0x7f = 0x12b1edeb ∧
    memRead loaded 0x80 = 0x428a2f98 ∧ memRead loaded 0xbf = 0xc67178f2 ∧
    memRead loaded 0xc0 = 0 ∧ memRead loaded 0xff = 0 := by decide +kernel

/-- V-A2 and V-S1: a read is logged; STATUS is read during a compress while the engine steps. -/
theorem test_rd :
    nextField (exec (.rd 0x00 0) loaded) (·.readLog) = some [0x6a09e667] ∧
    nextField (exec (.rd 0x09 0) (busyAt 8)) (·.readLog) = some [0x0000080d] ∧
    nextField (exec (.rd 0x09 0) (busyAt 8)) (·.IDX) = some 16 := by decide +kernel

/-- R54, R57, R170: `rsp_rdata` carries the word of an accepted read only. -/
theorem test_rsp_rdata :
    rspRdataPin loaded ⟨false, 0x00, 0⟩ = some 0x6a09e667 ∧
    rspRdataPin (busyAt 8) ⟨false, 0x00, 0⟩ = none ∧ rspRdataPin loaded ⟨true, 0x00, 0⟩ = none ∧
    rspRdataPin { loaded with rstN := [false] } ⟨false, 0x00, 0⟩ = none := by decide +kernel

/-- R57: a read of anything but STATUS is held while the engine runs. -/
theorem test_rd_held :
    nextField (step (withPresented (busyAt 8) ⟨false, 0x00, 0⟩)) (·.readLog) = some [] ∧
    nextField (step (withPresented (busyAt 8) ⟨false, 0x00, 0⟩)) (·.program) =
      some [.present ⟨false, 0x00, 0⟩] := by decide +kernel

/-- V-A1 to V-A4: words of S and M read back. -/
theorem test_wr :
    readBack (exec (.wr 0x00 0x11111111) loaded) 0x00 = some 0x11111111 ∧
    readBack (exec (.wr 0x07 0x11111111) loaded) 0x07 = some 0x11111111 ∧
    readBack (exec (.wr 0x47 0x22222222) loaded) 0x47 = some 0x22222222 ∧
    readBack (exec (.wr 0x7f 0x22222222) loaded) 0x7f = some 0x22222222 := by decide +kernel

/-- V-A6, V-A13 to V-A16: a write to KTAB, to a reserved address, to STATUS changes nothing. -/
theorem test_wr_ignored :
    nextField (exec (.wr 0x80 0x33333333) loaded) id = some loaded ∧
    nextField (exec (.wr 0x20 0x44444444) loaded) id = some loaded ∧
    nextField (exec (.wr 0x09 0xffffffff) loaded) id = some loaded ∧
    nextField (exec (.wr 0xff 0x44444444) loaded) id = some loaded := by decide +kernel

/-! ## The commands: STATUS after acceptance, and the engine's first step -/

/-- V-S3: STATUS after acceptance; S after one step is row 0 of the trace of E1. -/
theorem test_compress1x :
    readBack (exec (.compress1x 0) loaded) 0x09 = some 0x00000001 ∧
    (engineStep { loaded with BUSY := true, UF := 0 }).S =
      ⟨0x5d6aebcd, 0x6a09e667, 0xbb67ae85, 0x3c6ef372, 0xfa2a4622, 0x510e527f, 0x9b05688c, 0x1f83d9ab⟩ := by
  decide +kernel

/-- V-S3; S after one step is row 1 of the trace. -/
theorem test_compress2x :
    readBack (exec (.compress2x 0) loaded) 0x09 = some 0x00000005 ∧
    (engineStep { loaded with BUSY := true, UF := 1 }).S =
      ⟨0x5a6ad9ad, 0x5d6aebcd, 0x6a09e667, 0xbb67ae85, 0x78ce7989, 0xfa2a4622, 0x510e527f, 0x9b05688c⟩ := by
  decide +kernel

/-- V-S2. -/
theorem test_compress4x :
    readBack (exec (.compress4x 0) loaded) 0x09 = some 0x00000009 ∧
    (engineStep { loaded with BUSY := true, UF := 2 }).S =
      ⟨0xd550f666, 0xc8c347a7, 0x5a6ad9ad, 0x5d6aebcd, 0x24e00850, 0xf92939eb, 0x78ce7989, 0xfa2a4622⟩ := by
  decide +kernel

/-- V-S1. -/
theorem test_compress8x :
    readBack (exec (.compress8x 0) loaded) 0x09 = some 0x0000000d ∧
    (engineStep { loaded with BUSY := true, UF := 3 }).S =
      ⟨0x85a07b5f, 0xe5030380, 0x2b4209f5, 0x04409a6a, 0x0c657a79, 0x9b27a401, 0x714260ad, 0x43ada245⟩ := by
  decide +kernel

/-- V-S1, the last step: from row 55 of the trace, STATUS and S after round 63. -/
theorem test_last_engine_step :
    memRead (engineStep { busyAt 56 with
      S := ⟨0x38cc9913, 0x3ec45cdb, 0xf5702fdb, 0x101fd28f, 0x54cb266b, 0xe50e1b4f, 0x9f4787c3, 0x529e7d00⟩ })
        0x09 = 0x0000400e ∧
    (engineStep { busyAt 56 with
      S := ⟨0x38cc9913, 0x3ec45cdb, 0xf5702fdb, 0x101fd28f, 0x54cb266b, 0xe50e1b4f, 0x9f4787c3, 0x529e7d00⟩ }).S =
      ⟨0x506e3058, 0xd39a2165, 0x04d24d6c, 0xb85e2ce9, 0x5ef50f24, 0xfb121210, 0x948d25b6, 0x961f4894⟩ := by
  decide +kernel

/-- V-A17 to V-A20: NOP with any other bits set. -/
theorem test_nop :
    nextField (exec (.nop 3) loaded) id = some loaded ∧
    nextField (exec (.wr 0x08 0xfffffffe) loaded) id = some loaded ∧
    nextField (exec (.nop 0) { loaded with IDX := 64, UF := 3, DONE := true }) (memRead · 0x09) =
      some 0x0000400e := by decide +kernel

/-! ## Reset, the listing language, the interface -/

/-- V-X1 and V-X3: after a reset in the middle of a compress the control fields read 0. -/
theorem test_reset :
    memRead State.reset 0x09 = 0 ∧ memRead State.reset 0x80 = 0x428a2f98 ∧
    nextField (step { busyAt 8 with rstN := [false] })
        (fun t => (t.IDX, t.UF, t.BUSY, t.DONE)) = some (0, 0, false, false) := by decide +kernel

/-- R87: names and expansions; the words are those of program P1 of spec/95. -/
theorem test_listing :
    assemble [.rd (stateAddr 0), .wr (schedAddr 63) 0x12b1edeb, .compress1x, .poll] =
      [.present (Request.ofWord 0x00000000000), .present (Request.ofWord 0x17f12b1edeb),
       .present (Request.ofWord 0x10800000001), .poll] ∧
    (assemble [.ldstate initialHash]).length = 8 ∧ (assemble [.ldsched abcSchedule]).length = 64 := by
  decide +kernel

/-- The word put on the port is the instruction the next step runs. -/
theorem test_with_fetch_word :
    nextField (step (State.reset.withFetchWord 48 0x10011111111)) (·.S.a) = some 0x11111111 ∧
    nextField (step (State.reset.withFetchWord 32 0x00000005)) (fun t => (t.UF, t.BUSY)) =
      some (2, true) := by decide +kernel

/-! ## Witnesses: for every statement with hypotheses, values that meet all of them together -/

/-- The invariant of R39 as a number check, for the witnesses below. -/
theorem inv_of (s : State)
    (h : decide (s.IDX.toNat ≤ 64) &&
      (!s.BUSY || decide (s.IDX.toNat ≤ 64 - unrollFactor s.UF ∧
        s.IDX.toNat % unrollFactor s.UF = 0 ∧ s.DONE = false)) &&
      (s.BUSY || !s.DONE || decide (s.IDX = 64)) &&
      (s.BUSY || s.DONE || decide (s.IDX = 0 ∧ s.UF = 0)) = true) : s.Inv := by
  cases hb : s.BUSY <;> cases hd : s.DONE <;>
    simp only [hb, hd, Bool.and_eq_true, Bool.or_eq_true, Bool.not_true, Bool.not_false,
      decide_eq_true_eq, reduceCtorEq, false_or, true_or, or_true, and_true, and_false, or_false] at h <;>
    constructor <;> simp_all

/-- RD of the highest and WR of the lowest 41-bit number of each half. -/
theorem test_witness_EveryTransactionWordDecodes :
    (0xffffffffff < 2 ^ 41 ∧ 0xffffffffff / 2 ^ 40 = 0) ∧
    (2 ^ 41 - 1 < 2 ^ 41 ∧ (2 ^ 41 - 1) / 2 ^ 40 = 1) ∧
    loaded.BUSY = false := by decide

theorem test_witness_CommandWordDecodesByItsLowThreeBits :
    loaded.BUSY = false ∧ (busyAt 8).BUSY = true := by decide

theorem test_witness_StepRunsTheInstructionOnThePort :
    (withPresented loaded (encode (.wr 0x7f 3)).toRequest).rstLevel = true ∧
    (withPresented loaded (encode (.wr 0x7f 3)).toRequest).program =
      .present (encode (.wr 0x7f 3)).toRequest :: [] ∧
    decodeTableWord 48 0x17f00000003 = some (.wr 0x7f 3) ∧
    decodeTableWord 32 0x00000005 = some (.compress4x 0) := by decide +kernel

/-- Nothing presented, `idle`, `poll`, each idle and busy. -/
theorem test_witness_StepWithoutATransaction :
    (loaded.rstLevel = true ∧ loaded.program = [] ∧ loaded.BUSY = false) ∧
    ((busyAt 8).rstLevel = true ∧ (busyAt 8).program = [] ∧ (busyAt 8).BUSY = true) ∧
    (∃ s : State, s.rstLevel = true ∧ s.program = .idle :: [] ∧ s.BUSY = false) ∧
    (∃ s : State, s.rstLevel = true ∧ s.program = .idle :: [] ∧ s.BUSY = true) ∧
    (∃ s : State, s.rstLevel = true ∧ s.program = .poll :: [] ∧ s.BUSY = true) ∧
    (∃ s : State, s.rstLevel = true ∧ s.program = .poll :: [] ∧ s.BUSY = false) :=
  ⟨⟨rfl, rfl, rfl⟩, ⟨rfl, rfl, rfl⟩,
   ⟨{ loaded with program := [.idle] }, rfl, rfl, rfl⟩,
   ⟨{ busyAt 8 with program := [.idle] }, rfl, rfl, rfl⟩,
   ⟨{ busyAt 8 with program := [.poll] }, rfl, rfl, rfl⟩,
   ⟨{ loaded with program := [.poll] }, rfl, rfl, rfl⟩⟩

/-- Idle at any address; busy at STATUS. The clauses by address: `test_read_address_map`. -/
theorem test_witness_ReadReturnsTheAddressedWord :
    (loaded.BUSY = false ∨ (0xff : Addr) = 0x09) ∧
    ((busyAt 8).BUSY = false ∨ (0x09 : Addr) = 0x09) := by decide

/-- The clauses by address, at their boundaries: 0x07, 0x08, 0x40, 0x7f, and 0x09, 0x3f, 0x80, 0xff. -/
theorem test_witness_WriteDoesWhatTheAddressSelects :
    loaded.BUSY = false ∧ (0x07 : Addr).extractLsb' 3 5 = 0 ∧
    (0x08 : Addr).extractLsb' 3 5 ≠ 0 ∧ (0x08 : Addr) = 0x08 ∧
    (0x40 : Addr).extractLsb' 6 2 = 0b01 ∧ (0x7f : Addr).extractLsb' 6 2 = 0b01 ∧
    (∀ addr ∈ ([0x09, 0x3f, 0x80, 0xff] : List Addr),
      addr.extractLsb' 3 5 ≠ 0 ∧ addr ≠ 0x08 ∧ addr.extractLsb' 6 2 ≠ 0b01) := by decide

theorem test_witness_WriteChangesOnlyTheAddressedWord :
    loaded.BUSY = false ∧ (0x07 : Addr) ≠ 0x08 ∧ (0x09 : Addr) ≠ 0x08 ∧ (0x40 : Addr) ≠ 0x08 ∧
    (0x7f : Addr) ≠ 0x08 ∧ (0x80 : Addr) ≠ 0x08 ∧ (0x06 : Addr) ≠ 0x07 := by decide

/-- RD, a command, NOP, WR to CTRL. -/
theorem test_witness_ReadsAndCommandsStoreNothing :
    loaded.BUSY = false ∧
    (∀ i ∈ ([.rd 0x40 0, .compress2x 0, .nop 0, .wr 0x08 7] : List Instr),
      ∀ addr v, i = .wr addr v → addr = 0x08) := by
  refine ⟨rfl, ?_⟩
  simp

theorem test_witness_StatusShowsTheControlFields :
    loaded.BUSY = false ∧ (busyAt 8).BUSY = true ∧
    (∀ i ∈ ([.rd 0x08 0, .wr 0x09 1, .compress1x 0] : List Instr), ∀ unused, i ≠ .rd 0x09 unused) := by
  refine ⟨rfl, rfl, ?_⟩
  simp

/-- Idle with START = 1, idle with START = 0, two words with the same low bits, busy. -/
theorem test_witness_CtrlIsTheCommandRegister :
    (loaded.BUSY = false ∧ (0x00000007 : Word).getLsbD 0 = true) ∧
    (loaded.BUSY = false ∧ (0xfffffffe : Word).getLsbD 0 = false) ∧
    ((0xfffffff9 : Word).toNat % 8 = (0x00000001 : Word).toNat % 8) ∧
    (busyAt 8).BUSY = true := by decide

theorem test_witness_InterlockDecidesAcceptance :
    (withPresented (busyAt 8) ⟨false, 0x09, 0⟩).rstLevel = true ∧
    (withPresented (busyAt 8) ⟨false, 0x09, 0⟩).program = .present ⟨false, 0x09, 0⟩ :: [] :=
  ⟨rfl, rfl⟩

/-- A write, a write of STATUS, a read of another address. -/
theorem test_witness_HeldTransactionHasNoEffect :
    ∀ r ∈ ([⟨true, 0x40, 1⟩, ⟨true, 0x09, 1⟩, ⟨false, 0x00, 0⟩] : List Request),
      (withPresented (busyAt 8) r).rstLevel = true ∧
      (withPresented (busyAt 8) r).program = .present r :: [] ∧
      (withPresented (busyAt 8) r).BUSY = true ∧ ¬ (r.we = false ∧ r.addr = 0x09) := by
  decide +kernel

theorem test_witness_WritesAndCommandsWaitWhileBusy :
    (busyAt 56).BUSY = true ∧
    (∀ i ∈ ([.wr 0x40 1, .compress1x 0, .nop 0] : List Instr), ∀ addr unused, i ≠ .rd addr unused) := by
  refine ⟨rfl, ?_⟩
  simp

theorem test_witness_OnlyStatusIsReadDuringACompress : (busyAt 8).BUSY = true := rfl

theorem test_witness_EdgeIsAHostStepThenAnEngineStep :
    (withPresented (busyAt 8) ⟨false, 0x09, 0⟩).rstLevel = true ∧
    (withPresented (busyAt 8) ⟨false, 0x09, 0⟩).program = .present ⟨false, 0x09, 0⟩ :: [] :=
  ⟨rfl, rfl⟩

theorem test_witness_CompressCommandsStartTheEngine : loaded.BUSY = false := rfl

theorem test_witness_NopHasNoEffect :
    loaded.BUSY = false ∧ (busyAt 8).BUSY = true ∧ (0xfffffffe : Word).getLsbD 0 = false := by decide

/-- The rounds of a step as a sequence of states. -/
theorem roundsFrom_next (m : Schedule) (i j : Nat) (s : HashState) (h : i + j < 64) :
    roundsFrom m i (j + 1) s =
      roundFused (roundsFrom m i j s) (kTable.get ⟨i + j, h⟩) (m.get ⟨i + j, h⟩) := by
  rw [roundsFrom_succ, roundAt, kWord_of_lt h, mWord_of_lt _ h]
  rfl

/-- The last step of COMPRESS_8X (the index becomes 64) and an earlier one (it does not), and a step of
COMPRESS_2X; an idle state. -/
theorem test_witness_EngineStepPerformsURounds :
    loaded.BUSY = false ∧
    ∀ s ∈ ([busyAt 8, busyAt 56, { busyAt 62 with UF := 1 }] : List State),
      ∃ f : Nat → HashState,
        s.Inv ∧ s.BUSY = true ∧ s.rstLevel = true ∧ f 0 = s.S ∧
        (∀ (j : Nat) (h : s.IDX.toNat + j < 64), j < 2 ^ s.UF.toNat →
          f (j + 1) =
            if s.UF = 3 then
              roundSeq (f j) (kTable.get ⟨s.IDX.toNat + j, h⟩) (s.M.get ⟨s.IDX.toNat + j, h⟩)
            else
              roundFused (f j) (kTable.get ⟨s.IDX.toNat + j, h⟩) (s.M.get ⟨s.IDX.toNat + j, h⟩)) := by
  refine ⟨rfl, fun s hs => ?_⟩
  have fields : s.Inv ∧ s.BUSY = true ∧ s.rstLevel = true := by
    simp only [List.mem_cons, List.not_mem_nil, or_false] at hs
    rcases hs with rfl | rfl | rfl <;> exact ⟨inv_of _ (by decide), rfl, rfl⟩
  refine ⟨fun j => roundsFrom s.M s.IDX.toNat j s.S, fields.1, fields.2.1, fields.2.2, rfl,
    fun j h _ => ?_⟩
  rw [show (if s.UF = 3 then roundSeq _ _ _ else roundFused _ _ _) = roundFused _ _ _ from ite_self _]
  exact roundsFrom_next _ _ _ _ h

/-- A schedule that differs before the step's first word and after its last one. -/
theorem test_witness_EngineStepReadsOnlyItsScheduleWords :
    (busyAt 8).Inv ∧ (busyAt 8).BUSY = true ∧ (busyAt 8).rstLevel = true ∧
    (∀ i : Fin 64, (busyAt 8).IDX.toNat ≤ i.val →
      i.val < (busyAt 8).IDX.toNat + unrollFactor (busyAt 8).UF →
      (((busyAt 8).M.set 7 1).set 16 1).get i = (busyAt 8).M.get i) ∧
    ((busyAt 8).M.set 7 1).set 16 1 ≠ (busyAt 8).M := by
  refine ⟨inv_of _ (by decide), rfl, rfl, ?_, ?_⟩ <;> decide +kernel

theorem test_witness_TablesAreStableDuringACompress :
    (busyAt 8).BUSY = true ∧ (busyAt 8).rstLevel = true := ⟨rfl, rfl⟩

theorem test_witness_RotrRotatesToTheRight :
    (0 < 1 ∧ 1 < 32 ∧ 0 < 32) ∧ (0 < 31 ∧ 31 < 32 ∧ 31 < 32) := by decide

theorem test_witness_AccumulatedRoundEqualsFusedRound :
    ∃ t1 t2 : Word,
      t1 = (((initialHash.h + ep1 initialHash.e) + ch initialHash.e initialHash.f initialHash.g)
        + 0x428a2f98) + 0x61626380 ∧
      t2 = ep0 initialHash.a + maj initialHash.a initialHash.b initialHash.c := ⟨_, _, rfl, rfl⟩

/-- V-R5. -/
theorem test_witness_RoundIsABijection :
    ∃ (r : HashState) (t1 t2 : Word), r = roundFused initialHash 0x428a2f98 0x61626380 ∧
      t2 = ep0 initialHash.a + maj initialHash.a initialHash.b initialHash.c ∧ t1 = r.a - t2 ∧
      t1 = 0x54da50e8 := ⟨_, _, _, rfl, rfl, rfl, by decide⟩

theorem test_witness_CompressIsSixtyFourRounds :
    ∃ f : Nat → HashState, f 0 = initialHash ∧
      (∀ (i : Nat) (h : i < 64),
        f (i + 1) = roundFused (f i) (kTable.get ⟨i, h⟩) (abcSchedule.get ⟨i, h⟩)) := by
  refine ⟨fun i => roundsFrom abcSchedule 0 i initialHash, rfl, fun i h => ?_⟩
  have next := roundsFrom_next abcSchedule 0 i initialHash (by omega)
  simp only [Nat.zero_add] at next
  exact next

/-- The four commands, each on the port of the idle engine. -/
theorem test_witness_AcceptedCompressCompletes :
    ∀ p ∈ ([(0x00000001, 1), (0x00000003, 2), (0x00000005, 4), (0xffffffff, 8)] : List (Word × Nat)),
      (withPresented loaded ⟨true, 0x08, p.1⟩).NoReset ∧
      (withPresented loaded ⟨true, 0x08, p.1⟩).BUSY = false ∧ p.1.getLsbD 0 = true ∧
      p.2 = 2 ^ (p.1.extractLsb' 1 2).toNat ∧
      (withPresented loaded ⟨true, 0x08, p.1⟩).program = .present ⟨true, 0x08, p.1⟩ :: [] ∧
      0 < 64 / p.2 := by
  unfold State.NoReset
  decide +kernel

theorem test_witness_UnrollVariantsAgree :
    loaded.NoReset ∧ loaded.BUSY = false ∧ (0x00000001 : Word).getLsbD 0 = true ∧
    (0x00000007 : Word).getLsbD 0 = true := by
  unfold State.NoReset
  decide +kernel

/-- A write held at the beginning of a compress. -/
theorem test_witness_HeldTransactionIsAccepted :
    (withPresented (busyAt 0) ⟨true, 0x40, 1⟩).Inv ∧ (withPresented (busyAt 0) ⟨true, 0x40, 1⟩).NoReset ∧
    (withPresented (busyAt 0) ⟨true, 0x40, 1⟩).program = .present ⟨true, 0x40, 1⟩ :: [] := by
  refine ⟨inv_of _ (by decide), ?_, rfl⟩
  unfold State.NoReset
  decide

/-- A reset; held transactions; busy before and at the last step, idle with a command on the port, idle without one. -/
theorem test_witness_ControlFieldsFollowCommandsAndEngine :
    State.rstLevel { busyAt 8 with rstN := [false] } = false ∧
    (∀ r ∈ ([⟨true, 0x09, 1⟩, ⟨false, 0x08, 0⟩] : List Request),
      (withPresented (busyAt 8) r).BUSY = true ∧
      (withPresented (busyAt 8) r).program = .present r :: [] ∧ ¬ (r.we = false ∧ r.addr = 0x09)) ∧
    ((busyAt 48).rstLevel = true ∧ (busyAt 48).BUSY = true ∧ (engineStep (busyAt 48)).IDX ≠ 64) ∧
    ((busyAt 56).rstLevel = true ∧ (busyAt 56).BUSY = true ∧ (engineStep (busyAt 56)).IDX = 64) ∧
    ((withPresented loaded ⟨true, 0x08, 7⟩).rstLevel = true ∧
      (withPresented loaded ⟨true, 0x08, 7⟩).BUSY = false ∧
      (withPresented loaded ⟨true, 0x08, 7⟩).commandOnPort = some 3) ∧
    ((withPresented loaded ⟨true, 0x08, 6⟩).rstLevel = true ∧
      (withPresented loaded ⟨true, 0x08, 6⟩).BUSY = false ∧
      (withPresented loaded ⟨true, 0x08, 6⟩).commandOnPort = none) := by decide +kernel

/-- Different registers, schedule, read log, word to be written and reserved command bits; the same
control. -/
theorem test_witness_DataNeverInfluencesControl :
    ∃ s s' : State, SameControl s s' ∧ s.S ≠ s'.S ∧ s.M ≠ s'.M ∧ s.readLog ≠ s'.readLog ∧
      s.program ≠ s'.program :=
  ⟨{ busyAt 8 with program := [.present ⟨true, 0x40, 1⟩, .present ⟨true, 0x08, 0x00000003⟩, .poll] },
   { busyAt 8 with
      S := HashState.zero, M := Vector.replicate 64 0, readLog := [1],
      program := [.present ⟨true, 0x40, 2⟩, .present ⟨true, 0x08, 0xfffffffb⟩, .poll] },
   ⟨rfl, rfl, rfl, rfl,
    .cons ⟨rfl, rfl, by decide⟩ (.cons ⟨rfl, rfl, by decide⟩ (.cons trivial .nil)), rfl⟩,
   by decide +kernel, by decide +kernel, by decide +kernel, by decide +kernel⟩

/-- Idle after reset, idle after a compress, running. -/
theorem test_witness_StepKeepsTheInvariant :
    State.reset.Inv ∧ State.Inv { loaded with IDX := 64, UF := 3, DONE := true } ∧ (busyAt 56).Inv :=
  ⟨inv_of _ (by decide), inv_of _ (by decide), inv_of _ (by decide)⟩

/-- Two engines after reset: each with its own draw. -/
theorem test_witness_ResetMeetsTheInvariant :
    (resetReplicas 2).map (·.S) = [drawnS 0 0, drawnS 1 0] := rfl

theorem test_witness_ResetLeavesControlFieldsZero :
    ∃ s : State, s = State.resetWith initialHash abcSchedule := ⟨_, rfl⟩

/-- A reset during a compress, a write held through it, `rst_n` back at 1 after it. -/
theorem test_witness_ResetAbandonsACompress :
    (withPresented { busyAt 8 with rstN := [false] } ⟨true, 0x40, 1⟩).rstN = false :: [] ∧
    (withPresented { busyAt 8 with rstN := [false] } ⟨true, 0x40, 1⟩).program =
      .present ⟨true, 0x40, 1⟩ :: [] ∧
    nextField (step (withPresented { busyAt 8 with rstN := [false] } ⟨true, 0x40, 1⟩)) State.rstLevel =
      some true := ⟨rfl, rfl, rfl⟩

/-- A compress that ends at this step: by its last round, and by reset. -/
theorem test_witness_OnlyResetEndsACompressEarly :
    ((busyAt 56).BUSY = true ∧ nextField (step (busyAt 56)) (·.BUSY) = some false) ∧
    (State.BUSY { busyAt 8 with rstN := [false] } = true ∧
      nextField (step { busyAt 8 with rstN := [false] }) (·.BUSY) = some false) := by
  decide +kernel

/-- Two engines, each of them in its place. -/
theorem test_witness_EnginesAreIndependent :
    (0 : Nat) ≠ 1 ∧ loaded.rstLevel = true ∧ [loaded, busyAt 8][1]? = some (busyAt 8) :=
  ⟨by decide, rfl, rfl⟩

/-- R160, R172: engine 1 under reset holds a draw of its own number, engine 0 is as it was. -/
theorem test_reset_of_one_engine :
    ∃ engines, stepReplica [loaded, { busyAt 8 with rstN := [false] }] 1 = .next engines ∧
      engines.map (·.S) = [initialHash, drawnS 1 0] ∧ engines.map (·.BUSY) = [false, false] :=
  ⟨_, rfl, rfl, rfl⟩

theorem test_witness_WholeByteTransactionWordsDecodeAlike :
    2 ^ 41 ≤ 2 ^ 41 ∧ (40 : Nat) ≠ 32 ∧ (40 : Nat) ≠ 41 ∧ (40 : Nat) ≠ 48 := by decide

end Sys2Proof.Tests
end

section
/-! PROOFS. Host steps and engine steps at one edge (R9, R58, R67). -/

namespace Sys2Proof.Machine

/-- What an edge with a transaction on the port does, RD being a read edge and WR a write edge. -/
theorem step_present {s : State} {r : Request} {rest : List HostAction}
    (hr : s.rstLevel = true) (hp : s.program = .present r :: rest) :
    step s = .next (if r.we then writeEdge s.nextLevel r.addr fun t => memWrite t r.addr r.wdata
                    else readEdge s.nextLevel r.addr) := by
  simp [step, clockEdge, hr, portEdge, hp, exec_decodeRequest]

/-- What the host does to a state at an edge with `r` on the port: the effect of `r` if the interlock
lets it through, nothing if it is held (R57, R58). -/
def hostPart (s : State) (r : Request) : State :=
  if reqReady s r.we r.addr then hostEffect s r else s

/-- Reading STATUS beside an engine step: the two touch different fields (R67). -/
theorem engineStep_logRead_nextAction (s : State) (v : Word) :
    engineStep (s.logRead v).nextAction = ((engineStep s).logRead v).nextAction := by
  unfold engineStep State.controlAdvanced State.logRead State.nextAction
  dsimp only; split <;> rfl

/-- A read edge is the host's part and then the engine's step, if BUSY was 1 before the edge (R67). -/
theorem readEdge_eq_engineStep_hostPart {s : State} {r : Request} (hw : r.we = false) :
    readEdge s r.addr = if s.BUSY then engineStep (hostPart s r) else hostPart s r := by
  cases hb : s.BUSY
  · simp [readEdge, hostPart, hostEffect, hw, reqReady_of_idle hb, engineEdge_of_idle hb]
  · by_cases ha : reqReady s false r.addr
    · simp [readEdge, hostPart, hostEffect, hw, ha, engineEdge_of_busy hb,
        engineStep_logRead_nextAction]
    · simp [readEdge, hostPart, hw, ha, engineEdge_of_busy hb]

/-- A write edge is one of the two: accepted while idle, when the engine has no step; held while busy,
when the host has none (R57, R67). -/
theorem writeEdge_eq_engineStep_hostPart {s : State} {r : Request} (hw : r.we = true) :
    (writeEdge s r.addr fun t => memWrite t r.addr r.wdata) =
      if s.BUSY then engineStep (hostPart s r) else hostPart s r := by
  cases hb : s.BUSY
  · simp [writeEdge, hostPart, hostEffect, hw, reqReady_of_idle hb]
  · simp [writeEdge, hostPart, hw, reqReady_of_busy hb, engineEdge_of_busy hb]

/-- The two readings of R67 side by side: a clocked edge is the host's part, then the engine's. -/
theorem step_eq_engineStep_hostPart {s : State} {r : Request} {rest : List HostAction}
    (hr : s.rstLevel = true) (hp : s.program = .present r :: rest) :
    step s = .next (if s.BUSY then engineStep (hostPart s.nextLevel r)
                    else hostPart s.nextLevel r) := by
  rw [step_present hr hp]
  congr 1
  cases hw : r.we
  · exact readEdge_eq_engineStep_hostPart hw
  · exact writeEdge_eq_engineStep_hostPart hw

/-- The host's part leaves a busy engine busy: an accepted read writes no control field. -/
theorem hostPart_BUSY_of_busy {s : State} (hb : s.BUSY = true) (r : Request) :
    (hostPart s r).BUSY = true := by
  cases hw : r.we
  · by_cases ha : reqReady s false r.addr <;> simp [hostPart, hostEffect, hw, ha, hb]
  · simp [hostPart, hw, reqReady_of_busy hb, hb]

/-- Settles O20: the intermediate state is the one after the host's part of the edge. -/
theorem edgeIsAHostStepThenAnEngineStep : Obligations.EdgeIsAHostStepThenAnEngineStep := by
  unfold Obligations.EdgeIsAHostStepThenAnEngineStep
  intro s r rest hr hp
  refine ⟨_, hostPart s.nextLevel r, step_eq_engineStep_hostPart hr hp, ?_, ?_⟩
  · change if reqReady s.nextLevel r.we r.addr then HostStep s.nextLevel _ else _ = s.nextLevel
    by_cases ha : reqReady s.nextLevel r.we r.addr
    · rw [if_pos ha]
      exact ⟨r, rest, hp, ha, if_pos ha⟩
    · rw [if_neg ha]
      exact if_neg ha
  · cases hb : s.BUSY
    · rfl
    · exact ⟨hostPart_BUSY_of_busy (s := s.nextLevel) hb r, rfl⟩

end Sys2Proof.Machine
end

section
/-! PROOFS. ROTR bit by bit (R7). -/

namespace Sys2Proof.Machine

/-- The two shifts of ROTR split at i + n = 32: below it the right shift gives the bit, from it on the
left shift does, and the other one gives 0. -/
theorem getLsbD_rotr (x : Word) {n i : Nat} (hn : n < 32) (hi : i < 32) :
    (rotr x n).getLsbD i = x.getLsbD ((i + n) % 32) := by
  rw [rotr, BitVec.getLsbD_or, BitVec.getLsbD_ushiftRight, BitVec.getLsbD_shiftLeft]
  by_cases h : i + n < 32
  · have low : i < 32 - n := by omega
    simp [low, Nat.mod_eq_of_lt h, Nat.add_comm n i]
  · have high : ¬ i < 32 - n := by omega
    have wrapped : (i + n) % 32 = i - (32 - n) := by omega
    have out : x.getLsbD (n + i) = false := BitVec.getLsbD_of_ge x _ (by omega)
    simp [high, hi, wrapped, out]

/-- Settles O26. -/
theorem rotrRotatesToTheRight : Obligations.RotrRotatesToTheRight := by
  unfold Obligations.RotrRotatesToTheRight
  intro x n i _ hn hi
  exact getLsbD_rotr x hn hi

end Sys2Proof.Machine
end

section
/-! PROOFS. The course of a compress from the acceptance of its command to its end (R121, R127). -/

namespace Sys2Proof.Machine

/-! ## One engine step is U rounds -/

/-- R107: the accumulated form of a round is the fused one. -/
theorem roundSeqAt_eq_roundAt : roundSeqAt = roundAt := rfl

/-- Each of the four loop bodies is the U rounds of its factor, in the order of the index (R122 to
R125). -/
theorem loopBody_eq_roundsFrom (uf : BitVec 2) (m : Schedule) (i : Nat) (s : HashState) :
    loopBody uf m i s = roundsFrom m i (unrollFactor uf) s := by
  have select : uf = 0 ∨ uf = 1 ∨ uf = 2 ∨ uf = 3 := by revert uf; decide
  rcases select with rfl | rfl | rfl | rfl
  · rfl
  · rfl
  · rfl
  · change body8x m i s = roundsFrom m i 8 s
    rw [body8x, roundSeqAt_eq_roundAt]
    rfl

theorem unrollFactor_eq_two_pow (sel : BitVec 2) : unrollFactor sel = 2 ^ sel.toNat :=
  Nat.one_shiftLeft _

theorem unrollFactor_pos (sel : BitVec 2) : 0 < unrollFactor sel := by
  rw [unrollFactor_eq_two_pow]; exact Nat.two_pow_pos _

/-- The factors are 1, 2, 4, 8: each of them divides 64. -/
theorem div_unrollFactor_mul (sel : BitVec 2) : 64 / unrollFactor sel * unrollFactor sel = 64 := by
  revert sel; decide

/-! ## One edge of a busy engine -/

/-- With no reset to come, `rst_n` is 1 at this edge. -/
theorem State.NoReset.rstLevel {s : State} (h : s.NoReset) : s.rstLevel = true := by
  unfold State.rstLevel
  cases hl : s.rstN with
  | nil => rfl
  | cons level levels => exact h level (by simp [hl])

/-- With no reset to come, none comes after this edge. -/
theorem State.NoReset.of_rstN_tail {s t : State} (h : s.NoReset) (ht : t.rstN = s.rstN.tail) :
    t.NoReset :=
  fun level hl => h level (List.mem_of_mem_tail (ht ▸ hl))

/-- Of a busy engine a read edge is the engine step, but for the host's own lists (R57, R67). -/
theorem readEdge_of_busy {s : State} (hb : s.BUSY = true) (addr : Addr) :
    ∃ actions log,
      readEdge s addr = { engineStep s with program := actions, readLog := log } := by
  rcases readEdge_cases s addr with ⟨-, accepted⟩ | ⟨-, -, held⟩
  · exact ⟨_, _, by rw [accepted, engineEdge_of_busy hb]; rfl⟩
  · exact ⟨_, _, held⟩

/-- A write edge of a busy engine is the engine step: the write is held (R57, R58). -/
theorem writeEdge_of_busy {s : State} (hb : s.BUSY = true) (addr : Addr) (effect : State → State) :
    writeEdge s addr effect = engineStep s := by
  rcases writeEdge_cases s addr effect with ⟨idle, -⟩ | ⟨-, held⟩
  · rw [hb] at idle; contradiction
  · exact held

/-- Whatever the host has on the port of a busy engine, the edge is the engine step, but for the host's
own lists (R57, R66). -/
theorem portEdge_of_busy {s : State} (hb : s.BUSY = true) :
    ∃ actions log,
      portEdge s = .next { engineStep s with program := actions, readLog := log } := by
  rcases portEdge_cases s with ⟨addr, -, read⟩ | ⟨r, -, -, -, write⟩ | ⟨-, idle, -⟩ |
    ⟨-, nothing⟩ | ⟨-, nothing⟩
  · obtain ⟨actions, log, h⟩ := readEdge_of_busy hb addr
    exact ⟨actions, log, by rw [read, h]⟩
  · exact ⟨_, _, by rw [write, writeEdge_of_busy hb]⟩
  · rw [hb] at idle; contradiction
  · exact ⟨_, _, by rw [nothing, engineEdge_of_busy hb]; rfl⟩
  · exact ⟨_, _, by rw [nothing, engineEdge_of_busy hb]⟩

/-- The same of a step with `rst_n` = 1, which passes on to the next level. -/
theorem step_of_busy {s : State} (hr : s.rstLevel = true) (hb : s.BUSY = true) :
    ∃ actions log,
      step s = .next { (engineStep s).nextLevel with program := actions, readLog := log } := by
  obtain ⟨actions, log, h⟩ := portEdge_of_busy (s := s.nextLevel) hb
  refine ⟨actions, log, ?_⟩
  simp only [step, clockEdge, hr, if_true, h, engineStep_nextLevel]

/-! ## The engine k steps into a compress -/

/-- The state k engine steps after the acceptance of a compress command with select `sel`, the working
registers then being `regs` and the schedule `m` (R127). -/
structure StepsInto (regs : HashState) (m : Schedule) (sel : BitVec 2) (k : Nat) (t : State) :
    Prop where
  S       : t.S = roundsFrom m 0 (k * unrollFactor sel) regs
  M       : t.M = m
  UF      : t.UF = sel
  IDX     : t.IDX.toNat = k * unrollFactor sel
  BUSY    : t.BUSY = decide (k * unrollFactor sel < 64)
  DONE    : t.DONE = !decide (k * unrollFactor sel < 64)
  noReset : t.NoReset

/-- The advance of the index does not wrap while the step stays within the 64 rounds. -/
theorem engineStep_IDX_toNat {s : State} (h : s.IDX.toNat + unrollFactor s.UF ≤ 64) :
    (engineStep s).IDX.toNat = s.IDX.toNat + unrollFactor s.UF := by
  rw [engineStep_IDX, BitVec.toNat_add, BitVec.toNat_ofNat]
  omega

/-- The loop test of R121 on the index as a number: up to 64, the step is the last one at 64. -/
theorem engineStep_flags {s : State} (hb : s.BUSY = true) (hd : s.DONE = false)
    (hle : (engineStep s).IDX.toNat ≤ 64) :
    (engineStep s).BUSY = decide ((engineStep s).IDX.toNat < 64) ∧
      (engineStep s).DONE = !decide ((engineStep s).IDX.toNat < 64) := by
  by_cases hlast : (engineStep s).IDX = 64
  · have hend : ¬ (engineStep s).IDX.toNat < 64 := by rw [hlast]; decide
    simpa only [hend, decide_false, Bool.not_false] using engineStep_last hlast
  · have hne : (engineStep s).IDX.toNat ≠ 64 := fun h => hlast (BitVec.eq_of_toNat_eq h)
    have hmore : (engineStep s).IDX.toNat < 64 := by omega
    simpa only [hmore, decide_true, Bool.not_true, hb, hd] using engineStep_not_last hlast

/-- One more edge is one more engine step, if rounds are left for it. -/
theorem StepsInto.step_next {regs : HashState} {m : Schedule} {sel : BitVec 2} {k : Nat} {t : State}
    (h : StepsInto regs m sel k t) (hk : (k + 1) * unrollFactor sel ≤ 64) :
    ∃ u, step t = .next u ∧ StepsInto regs m sel (k + 1) u := by
  obtain ⟨hS, hM, hUF, hIDX, hBUSY, hDONE, hNoReset⟩ := h
  have hnext : (k + 1) * unrollFactor sel = k * unrollFactor sel + unrollFactor sel :=
    Nat.succ_mul _ _
  have hpos := unrollFactor_pos sel
  have hlt : k * unrollFactor sel < 64 := by omega
  simp only [hlt, decide_true, Bool.not_true] at hBUSY hDONE
  obtain ⟨actions, log, hstep⟩ := step_of_busy hNoReset.rstLevel hBUSY
  have hidx : (engineStep t).IDX.toNat = (k + 1) * unrollFactor sel := by
    rw [engineStep_IDX_toNat (by rw [hUF]; omega), hUF, hIDX, hnext]
  obtain ⟨hbusy, hdone⟩ := engineStep_flags hBUSY hDONE (hidx.trans_le hk)
  rw [hidx] at hbusy hdone
  refine ⟨_, hstep, ?_, ?_, ?_, hidx, hbusy, hdone, ?_⟩
  · change (engineStep t).S = _
    rw [engineStep_S, loopBody_eq_roundsFrom, hS, hM, hUF, hIDX, hnext, roundsFrom_add, Nat.zero_add]
  · exact (engineStep_M t).trans hM
  · exact (engineStep_UF t).trans hUF
  · exact hNoReset.of_rstN_tail (congrArg List.tail (engineStep_rstN t))

/-- n more edges are n more engine steps, if rounds are left for all of them. -/
theorem StepsInto.run_next {regs : HashState} {m : Schedule} {sel : BitVec 2} {k n : Nat} {t : State}
    (h : StepsInto regs m sel k t) (hk : (k + n) * unrollFactor sel ≤ 64) :
    ∃ u, run n t = .next u ∧ StepsInto regs m sel (k + n) u := by
  induction n generalizing k t with
  | zero => exact ⟨t, rfl, h⟩
  | succ n ih =>
    have hfirst : (k + 1) * unrollFactor sel ≤ 64 :=
      (Nat.mul_le_mul_right _ (by omega)).trans hk
    obtain ⟨t', hstep, ht'⟩ := h.step_next hfirst
    rw [show k + (n + 1) = k + 1 + n by omega] at hk ⊢
    obtain ⟨u, hrun, hu⟩ := ih ht' hk
    exact ⟨u, by simp only [run, hstep, hrun], hu⟩

/-- After 64 / U engine steps the compress is complete (R127). -/
theorem StepsInto.complete {regs : HashState} {m : Schedule} {sel : BitVec 2} {t : State}
    (h : StepsInto regs m sel (64 / unrollFactor sel) t) :
    t.S = compress regs m ∧ t.M = m ∧ t.UF = sel ∧ t.IDX = 64 ∧ t.BUSY = false ∧ t.DONE = true := by
  obtain ⟨hS, hM, hUF, hIDX, hBUSY, hDONE, -⟩ := h
  rw [div_unrollFactor_mul] at hS hIDX hBUSY hDONE
  exact ⟨hS, hM, hUF, BitVec.eq_of_toNat_eq hIDX, hBUSY, hDONE⟩

/-- The acceptance of a compress command is the start of its compress: no round yet (R132). -/
theorem step_of_compressCommand {s : State} {v : Word} {rest : List HostAction}
    (hn : s.NoReset) (hb : s.BUSY = false) (hv : v.getLsbD 0 = true)
    (hp : s.program = .present ⟨true, ctrlAddr, v⟩ :: rest) :
    ∃ t, step s = .next t ∧ StepsInto s.S s.M (v.extractLsb' 1 2) 0 t := by
  have hstart : fieldStart v = true := hv
  refine ⟨(startCompress s.nextLevel (v.extractLsb' 1 2)).nextAction, ?_, ?_⟩
  · rw [step_present hn.rstLevel hp]
    simp [writeEdge, reqReady_of_idle (s := s.nextLevel) hb, command, hstart, fieldUnrollSel]
  · exact
      { S := by simp
        M := rfl
        UF := rfl
        IDX := by simp
        BUSY := by simp
        DONE := by simp
        noReset := hn.of_rstN_tail rfl }

/-- k edges after that of an accepted compress command, k at most 64 / U, the engine is k steps into
its compress, whatever the host has presented meanwhile (R127). -/
theorem run_of_compressCommand {s : State} {v : Word} {rest : List HostAction} {k : Nat}
    (hn : s.NoReset) (hb : s.BUSY = false) (hv : v.getLsbD 0 = true)
    (hp : s.program = .present ⟨true, ctrlAddr, v⟩ :: rest)
    (hk : k * unrollFactor (v.extractLsb' 1 2) ≤ 64) :
    ∃ t, run (1 + k) s = .next t ∧ StepsInto s.S s.M (v.extractLsb' 1 2) k t := by
  obtain ⟨t, hstep, ht⟩ := step_of_compressCommand hn hb hv hp
  have hk' : (0 + k) * unrollFactor (v.extractLsb' 1 2) ≤ 64 := by rwa [Nat.zero_add]
  obtain ⟨u, hrun, hu⟩ := ht.run_next hk'
  rw [Nat.zero_add] at hu
  exact ⟨u, by simp only [Nat.add_comm 1 k, run, hstep, hrun], hu⟩

/-- Where a compress command leaves the machine after its own number of edges: the select shows in UF
only (R127). -/
theorem run_complete_of_compressCommand {s : State} {v : Word} {rest : List HostAction}
    (hn : s.NoReset) (hb : s.BUSY = false) (hv : v.getLsbD 0 = true)
    (hp : s.program = .present ⟨true, ctrlAddr, v⟩ :: rest) :
    ∃ t, run (1 + 64 / 2 ^ (v.extractLsb' 1 2).toNat) s = .next t ∧
      t.S = compress s.S s.M ∧ t.M = s.M ∧ t.UF = v.extractLsb' 1 2 ∧
      t.IDX = 64 ∧ t.BUSY = false ∧ t.DONE = true := by
  obtain ⟨t, hrun, ht⟩ := run_of_compressCommand hn hb hv hp (div_unrollFactor_mul _).le
  rw [unrollFactor_eq_two_pow] at hrun
  exact ⟨t, hrun, ht.complete⟩

/-- Settles O38: both runs end in Compress of the same registers and the same schedule. -/
theorem unrollVariantsAgree : Obligations.UnrollVariantsAgree := by
  unfold Obligations.UnrollVariantsAgree
  intro s v w rest rest' hn hb hv hw
  obtain ⟨t, ht, tS, tM, -, tIDX, tBUSY, tDONE⟩ := run_complete_of_compressCommand
    (s := { s with program := .present ⟨true, 0x08, v⟩ :: rest }) hn hb hv rfl
  obtain ⟨u, hu, uS, uM, -, uIDX, uBUSY, uDONE⟩ := run_complete_of_compressCommand
    (s := { s with program := .present ⟨true, 0x08, w⟩ :: rest' }) hn hb hw rfl
  exact ⟨t, u, ht, hu, tS.trans uS.symm, tM.trans uM.symm, tIDX.trans uIDX.symm,
    tBUSY.trans uBUSY.symm, tDONE.trans uDONE.symm⟩

end Sys2Proof.Machine
end

section
/-! PROOFS. What an edge makes of the control fields and of the host's actions (R25 to R29). -/

namespace Sys2Proof.Machine

/-! ## The control fields apart from the data -/

/-- The four control fields of 10_state.md (R25 to R28), without the data beside them. -/
@[ext]
structure Control where
  IDX  : BitVec 7
  UF   : BitVec 2
  BUSY : Bool
  DONE : Bool

/-- The control fields of a state. -/
def State.control (s : State) : Control := ⟨s.IDX, s.UF, s.BUSY, s.DONE⟩

/-- The unroll select that a host action asks for on the port, if it is a compress command (R82). -/
def HostAction.command : HostAction → Option (BitVec 2)
  | .present r =>
    if r.we && r.addr == ctrlAddr && fieldStart r.wdata then some (fieldUnrollSel r.wdata) else none
  | .poll => none
  | .idle => none

theorem State.commandOnPort_nil {s : State} (hp : s.program = []) : s.commandOnPort = none := by
  simp [State.commandOnPort, hp]

theorem State.commandOnPort_cons {s : State} {act : HostAction} {rest : List HostAction}
    (hp : s.program = act :: rest) : s.commandOnPort = act.command := by
  cases act <;> simp [State.commandOnPort, HostAction.command, hp]

/-- What an edge with `rst_n` = 1 makes of the control fields: the engine's step while busy, the
start action when an idle engine is given a compress command, otherwise nothing (R25 to R28). -/
def State.portControl (s : State) : Control :=
  if s.BUSY then (engineStep s).control
  else match s.commandOnPort with
    | some sel => (startCompress s sel).control
    | none     => s.control

/-- What an edge makes of the control fields, reset included (R38). -/
def State.nextControl (s : State) : Control :=
  if s.rstLevel then s.portControl else s.controlReset.control

/-- The host is done with this action after an edge with `rst_n` = 1 (R51, R57; log entry 19). -/
def HostAction.taken (s : State) : HostAction → Bool
  | .present r => reqReady s r.we r.addr
  | .poll      => !s.BUSY
  | .idle      => true

/-- The host's actions after an edge with `rst_n` = 1. -/
def State.portProgram (s : State) : List HostAction :=
  match s.program with
  | []          => []
  | act :: rest => if act.taken s then rest else act :: rest

/-- The host's actions after an edge, reset included (R170). -/
def State.nextProgram (s : State) : List HostAction :=
  if s.rstLevel then s.portProgram else heldThroughReset s.program

theorem State.portControl_of_busy {s : State} (hb : s.BUSY = true) :
    s.portControl = (engineStep s).control := by
  simp [State.portControl, hb]

theorem State.portControl_of_command {s : State} {sel : BitVec 2} (hb : s.BUSY = false)
    (hc : s.commandOnPort = some sel) : s.portControl = (startCompress s sel).control := by
  simp [State.portControl, hb, hc]

theorem State.portControl_of_no_command {s : State} (hb : s.BUSY = false)
    (hc : s.commandOnPort = none) : s.portControl = s.control := by
  simp [State.portControl, hb, hc]

/-- The control fields after an edge that shows no compress command are those the engine leaves. -/
theorem State.portControl_of_engine {s : State} (hc : s.commandOnPort = none) :
    s.portControl = (engineEdge s).control := by
  cases hb : s.BUSY
  · rw [portControl_of_no_command hb hc, engineEdge_of_idle hb]
  · rw [portControl_of_busy hb, engineEdge_of_busy hb]

theorem State.nextControl_of_level {s : State} (hr : s.rstLevel = true) :
    s.nextControl = s.portControl := by
  simp [State.nextControl, hr]

theorem State.nextControl_of_reset {s : State} (hr : s.rstLevel = false) :
    s.nextControl = s.controlReset.control := by
  simp [State.nextControl, hr]

theorem State.nextProgram_of_level {s : State} (hr : s.rstLevel = true) :
    s.nextProgram = s.portProgram := by
  simp [State.nextProgram, hr]

theorem State.nextProgram_of_reset {s : State} (hr : s.rstLevel = false) :
    s.nextProgram = heldThroughReset s.program := by
  simp [State.nextProgram, hr]

theorem State.portProgram_cons {s : State} {act : HostAction} {rest : List HostAction}
    (hp : s.program = act :: rest) :
    s.portProgram = if act.taken s then rest else act :: rest := by
  simp [State.portProgram, hp]

/-! ## Read and write edges -/

theorem readEdge_control (s : State) (addr : Addr) :
    (readEdge s addr).control = (engineEdge s).control := by
  unfold readEdge; split <;> rfl

theorem readEdge_program (s : State) (addr : Addr) :
    (readEdge s addr).program =
      if reqReady s false addr then s.program.tail else s.program := by
  unfold readEdge; split <;> simp

theorem readEdge_rstN (s : State) (addr : Addr) : (readEdge s addr).rstN = s.rstN := by
  unfold readEdge; split <;> simp

theorem writeEdge_program {s : State} {addr : Addr} {effect : State → State}
    (he : (effect s).program = s.program) :
    (writeEdge s addr effect).program =
      if reqReady s true addr then s.program.tail else s.program := by
  unfold writeEdge; split <;> simp [he]

theorem writeEdge_rstN {s : State} {addr : Addr} {effect : State → State}
    (he : (effect s).rstN = s.rstN) : (writeEdge s addr effect).rstN = s.rstN := by
  unfold writeEdge; split <;> simp [he]

/-- CTRL has one address (R56). -/
theorem target_eq_ctrl_iff (addr : Addr) : target addr = .ctrl ↔ addr = ctrlAddr := by
  revert addr; decide

theorem command_of_start {s : State} {v : Word} (hv : fieldStart v = true) :
    command s v = startCompress s (fieldUnrollSel v) := by
  simp [command, hv]

theorem command_of_no_start {s : State} {v : Word} (hv : fieldStart v = false) :
    command s v = s := by
  simp [command, hv]

/-- A write edge of an idle engine starts a compress if the write is a compress command, and leaves
the control fields alone otherwise; of a busy one it is the engine's step (R55, R57, R82). -/
theorem writeEdge_control {s : State} {r : Request} {rest : List HostAction}
    (hp : s.program = .present r :: rest) (hw : r.we = true) :
    (writeEdge s r.addr fun t => memWrite t r.addr r.wdata).control = s.portControl := by
  rcases writeEdge_cases s r.addr (fun t => memWrite t r.addr r.wdata) with
    ⟨hb, accepted⟩ | ⟨hb, held⟩
  · rw [accepted]
    change (memWrite s r.addr r.wdata).control = _
    by_cases ha : r.addr = ctrlAddr
    · cases hs : fieldStart r.wdata
      · have hc : s.commandOnPort = none := by simp [State.commandOnPort, hp, hs]
        rw [State.portControl_of_no_command hb hc, ha, memWrite_ctrlAddr, command_of_no_start hs]
      · have hc : s.commandOnPort = some (fieldUnrollSel r.wdata) := by
          simp [State.commandOnPort, hp, hw, ha, hs]
        rw [State.portControl_of_command hb hc, ha, memWrite_ctrlAddr, command_of_start hs]
    · have hc : s.commandOnPort = none := by simp [State.commandOnPort, hp, ha]
      obtain ⟨hIDX, hUF, hBUSY, hDONE⟩ :=
        memWrite_control r.wdata (mt (target_eq_ctrl_iff r.addr).mp ha)
      rw [State.portControl_of_no_command hb hc]
      exact Control.ext hIDX hUF hBUSY hDONE
  · rw [held, State.portControl_of_busy hb]

/-! ## A step -/

/-- The part of an edge from `s` to `t` that no data value takes part in. -/
structure ControlEdge (s t : State) : Prop where
  control : t.control = s.nextControl
  program : t.program = s.nextProgram
  rstN    : t.rstN = s.rstN.tail

/-- An edge with `rst_n` = 1, as to the control fields, the host's actions and the levels of
`rst_n`. -/
theorem portEdge_control (s : State) :
    ∃ t, portEdge s = .next t ∧ t.control = s.portControl ∧ t.program = s.portProgram ∧
      t.rstN = s.rstN := by
  rcases hp : s.program with _ | ⟨act, rest⟩
  · have hc : s.commandOnPort = none := State.commandOnPort_nil hp
    exact ⟨engineEdge s, by simp [portEdge, hp], (State.portControl_of_engine hc).symm,
      by simp [State.portProgram, hp], by simp⟩
  · rw [State.portProgram_cons hp]
    cases act with
    | present r =>
      refine ⟨_, by rw [portEdge, hp]; exact exec_decodeRequest r s, ?_⟩
      cases hw : r.we
      · have hc : s.commandOnPort = none := by simp [State.commandOnPort, hp, hw]
        rw [if_neg Bool.false_ne_true, State.portControl_of_engine hc]
        refine ⟨readEdge_control s r.addr, ?_, readEdge_rstN s r.addr⟩
        rw [readEdge_program, hp, HostAction.taken, hw, List.tail_cons]
      · rw [if_pos rfl]
        have he : (memWrite s r.addr r.wdata).program = s.program :=
          memWrite_program s r.addr r.wdata
        refine ⟨writeEdge_control hp hw, ?_, writeEdge_rstN (memWrite_rstN s r.addr r.wdata)⟩
        rw [writeEdge_program he, hp, HostAction.taken, hw, List.tail_cons]
    | poll =>
      have hc : s.commandOnPort = none := State.commandOnPort_cons hp
      rw [State.portControl_of_engine hc]
      cases hb : s.BUSY
      · refine ⟨readEdge s statusAddr, by simp [portEdge, hp, hb, exec, execRd],
          readEdge_control s statusAddr, ?_, readEdge_rstN s statusAddr⟩
        simp [readEdge_program, reqReady_of_idle hb, hp, HostAction.taken, hb]
      · exact ⟨engineEdge s, by simp [portEdge, hp, hb], rfl, by simp [HostAction.taken, hb, hp],
          by simp⟩
    | idle =>
      have hc : s.commandOnPort = none := State.commandOnPort_cons hp
      exact ⟨(engineEdge s).nextAction, by simp [portEdge, hp],
        (State.portControl_of_engine hc).symm, by simp [HostAction.taken, hp], by simp⟩

theorem State.portControl_nextLevel (s : State) : s.nextLevel.portControl = s.portControl := by
  simp only [portControl, engineStep_nextLevel]; rfl

theorem State.portProgram_nextLevel (s : State) : s.nextLevel.portProgram = s.portProgram := rfl

/-- Every step answers a next state, and what it makes of the control fields and of the host's
actions is a function of these, the level of `rst_n` and the command on the port (R29). -/
theorem exists_step_controlEdge (s : State) : ∃ t, step s = .next t ∧ ControlEdge s t := by
  rcases step_cases s with ⟨hr, hstep⟩ | ⟨hr, hstep⟩
  · obtain ⟨t, hport, hcontrol, hprogram, hrstN⟩ := portEdge_control s.nextLevel
    rw [State.portControl_nextLevel, ← State.nextControl_of_level hr] at hcontrol
    rw [State.portProgram_nextLevel, ← State.nextProgram_of_level hr] at hprogram
    exact ⟨t, hstep.trans hport, hcontrol, hprogram, hrstN⟩
  · exact ⟨_, hstep, (State.nextControl_of_reset hr).symm, (State.nextProgram_of_reset hr).symm,
      rfl⟩

end Sys2Proof.Machine
end

section
/-! PROOFS. The invariant of R39: at reset, and over every step (R38, R39). -/

namespace Sys2Proof.Machine

/-! ## The invariant of the operations on the control fields -/

/-- The invariant sees the control fields only. -/
theorem State.Inv.of_control_eq {s t : State} (hs : s.Inv) (h : t.control = s.control) : t.Inv := by
  obtain ⟨hIDX, hUF, hBUSY, hDONE⟩ := Control.mk.inj h
  exact
    { idx_le := by rw [hIDX]; exact hs.idx_le
      idx_le_of_busy := by rw [hIDX, hUF, hBUSY]; exact hs.idx_le_of_busy
      idx_multiple_of_busy := by rw [hIDX, hUF, hBUSY]; exact hs.idx_multiple_of_busy
      idx_of_done := by rw [hIDX, hBUSY, hDONE]; exact hs.idx_of_done
      fresh := by rw [hIDX, hUF, hBUSY, hDONE]; exact hs.fresh
      not_done_of_busy := by rw [hBUSY, hDONE]; exact hs.not_done_of_busy }

/-- Reset brings the invariant about, whatever was before (R38, R170). -/
theorem State.controlReset_inv (s : State) : s.controlReset.Inv := by
  constructor <;> simp

/-- So does the start action (R132). -/
theorem startCompress_inv (s : State) (sel : BitVec 2) : (startCompress s sel).Inv := by
  constructor <;> simp

/-- The four unroll factors (R83). -/
theorem unrollFactor_cases (sel : BitVec 2) :
    unrollFactor sel = 1 ∨ unrollFactor sel = 2 ∨ unrollFactor sel = 4 ∨ unrollFactor sel = 8 := by
  revert sel; decide

/-- The rounds of one engine step stay within the 64 (R39 item 2). -/
theorem State.Inv.idx_add_unrollFactor_le {s : State} (hs : s.Inv) (hb : s.BUSY = true) :
    s.IDX.toNat + unrollFactor s.UF ≤ 64 := by
  have hle := hs.idx_le_of_busy hb
  have hU := unrollFactor_cases s.UF
  omega

/-- Every factor divides 64: a multiple of it below 64 leaves room for one more step (R39
item 2). -/
theorem le_sub_unrollFactor_of_multiple {n : Nat} (sel : BitVec 2) (hn : n % unrollFactor sel = 0)
    (hlt : n < 64) : n ≤ 64 - unrollFactor sel := by
  rcases unrollFactor_cases sel with hU | hU | hU | hU <;> rw [hU] at hn ⊢ <;> omega

/-- The engine's step keeps the invariant: the index stays a multiple of U, and at 64 the flags turn
(R121). -/
theorem engineStep_inv {s : State} (hs : s.Inv) (hb : s.BUSY = true) : (engineStep s).Inv := by
  have hroom := hs.idx_add_unrollFactor_le hb
  have hidx := engineStep_IDX_toNat hroom
  have hle : (engineStep s).IDX.toNat ≤ 64 := hidx.trans_le hroom
  have hmul : (engineStep s).IDX.toNat % unrollFactor s.UF = 0 := by
    rw [hidx, Nat.add_mod_right]; exact hs.idx_multiple_of_busy hb
  obtain ⟨hbusy, hdone⟩ := engineStep_flags hb (hs.not_done_of_busy hb) hle
  by_cases hmore : (engineStep s).IDX.toNat < 64
  · simp only [hmore, decide_true, Bool.not_true] at hbusy hdone
    refine ⟨hle, fun _ => ?_, fun _ => ?_, ?_, ?_, fun _ => hdone⟩
    · rw [engineStep_UF]; exact le_sub_unrollFactor_of_multiple s.UF hmul hmore
    · rw [engineStep_UF]; exact hmul
    all_goals intro hidle; rw [hbusy] at hidle; contradiction
  · simp only [hmore, decide_false, Bool.not_false] at hbusy hdone
    have hlast : (engineStep s).IDX = 64 :=
      BitVec.eq_of_toNat_eq (Nat.le_antisymm hle (not_lt.mp hmore))
    refine ⟨hle, ?_, ?_, fun _ _ => hlast, fun _ hfresh => ?_, ?_⟩
    case refine_3 => rw [hdone] at hfresh; contradiction
    all_goals intro hrun; rw [hbusy] at hrun; contradiction

/-! ## Every step -/

/-- An edge with `rst_n` = 1 leaves control fields that meet the invariant. -/
theorem State.Inv.of_portControl {s t : State} (hs : s.Inv) (ht : t.control = s.portControl) :
    t.Inv := by
  cases hb : s.BUSY
  · rcases hc : s.commandOnPort with _ | sel
    · exact hs.of_control_eq (ht.trans (State.portControl_of_no_command hb hc))
    · exact (startCompress_inv s sel).of_control_eq (ht.trans (State.portControl_of_command hb hc))
  · exact (engineStep_inv hs hb).of_control_eq (ht.trans (State.portControl_of_busy hb))

theorem ControlEdge.inv {s t : State} (h : ControlEdge s t) (hs : s.Inv) : t.Inv := by
  obtain ⟨hcontrol, -, -⟩ := h
  cases hr : s.rstLevel
  · exact s.controlReset_inv.of_control_eq (hcontrol.trans (State.nextControl_of_reset hr))
  · exact hs.of_portControl (hcontrol.trans (State.nextControl_of_level hr))

/-- Settles O42: an edge leaves the control fields of a reset, of a started compress, of an engine
step or of the state before, and the invariant holds of each. -/
theorem stepKeepsTheInvariant : Obligations.StepKeepsTheInvariant := by
  unfold Obligations.StepKeepsTheInvariant
  intro s hs
  obtain ⟨t, hstep, hedge⟩ := exists_step_controlEdge s
  exact ⟨t, hstep, hedge.inv hs⟩

/-! ## Reset -/

/-- The invariant holds of the state after reset, whatever S and M are (R38). -/
theorem State.resetWith_inv (regs : HashState) (sched : Schedule) :
    (State.resetWith regs sched).Inv :=
  (State.controlReset_inv (State.resetWith regs sched)).of_control_eq rfl

/-- Settles O43. -/
theorem resetMeetsTheInvariant : Obligations.ResetMeetsTheInvariant := by
  unfold Obligations.ResetMeetsTheInvariant
  refine ⟨State.resetWith_inv _ _, State.resetWith_inv, fun nEngines => ⟨?_, fun s hs => ?_⟩⟩
  · rw [resetReplicas, List.length_map, List.length_range]
  · obtain ⟨engine, -, rfl⟩ := List.mem_map.mp hs
    exact (State.resetWith_inv (drawnS engine 0) (drawnM engine 0)).of_control_eq rfl

/-- Settles O44: the fields are those of State.resetWith; CTRL and STATUS are read through the
address map. -/
theorem resetLeavesControlFieldsZero : Obligations.ResetLeavesControlFieldsZero := by
  unfold Obligations.ResetLeavesControlFieldsZero
  refine ⟨?_, _, _, rfl⟩
  rintro regs sched s rfl
  have hstatus : statusWord 0 0 false false = 0 := by decide
  exact ⟨rfl, rfl, rfl, rfl, rfl, rfl, fun i => memRead_ktabAddr _ i, memRead_ctrlAddr _,
    (memRead_statusAddr _).trans hstatus, rfl, rfl⟩

end Sys2Proof.Machine
end

section
/-! PROOFS. No data value influences a control field (R29). -/

namespace Sys2Proof.Machine

/-! ## A command word counts by its low three bits (R82, R85) -/

theorem fieldStart_eq_of_low {v w : Word} (h : v.extractLsb' 0 3 = w.extractLsb' 0 3) :
    fieldStart v = fieldStart w := by
  have hbit := congrArg (fun low : BitVec 3 => low.getLsbD 0) h
  simpa [fieldStart] using hbit

theorem fieldUnrollSel_eq_of_low {v w : Word} (h : v.extractLsb' 0 3 = w.extractLsb' 0 3) :
    fieldUnrollSel v = fieldUnrollSel w := by
  ext i hi
  have hbit := congrArg (fun low : BitVec 3 => low.getLsbD (1 + i)) h
  simpa [fieldUnrollSel, show 1 + i < 3 by omega] using hbit

/-! ## What the host shows on the port -/

/-- Actions of the same kind are taken or held alike: the interlock sees BUSY, the direction and the
address (R57). -/
theorem SameKind.taken_eq {s s' : State} (hb : s.BUSY = s'.BUSY) :
    ∀ {act act' : HostAction}, SameKind act act' → act.taken s = act'.taken s'
  | .present _, .present _, ⟨hwe, haddr, _⟩ => by
    simp only [HostAction.taken, reqReady, hb, hwe, haddr]
  | .poll, .poll, _ => congrArg not hb
  | .idle, .idle, _ => rfl

/-- Actions of the same kind ask for the same compress: START and UNROLL_SEL of a write to CTRL are
part of its kind. -/
theorem SameKind.command_eq :
    ∀ {act act' : HostAction}, SameKind act act' → act.command = act'.command
  | .present r, .present _, ⟨hwe, haddr, hlow⟩ => by
    rw [HostAction.command, HostAction.command, ← hwe, ← haddr]
    by_cases hcmd : r.we = true ∧ r.addr = ctrlAddr
    · have hsame := hlow hcmd.1 hcmd.2
      rw [fieldStart_eq_of_low hsame, fieldUnrollSel_eq_of_low hsame]
    · have hno : (r.we && r.addr == ctrlAddr) = false := by simpa using hcmd
      simp [hno]
  | .poll, .poll, _ => rfl
  | .idle, .idle, _ => rfl

/-- Of two programs of the same kinds, reset passes over an idle cycle at the head of both, and
leaves anything else at the head of both (R170). -/
theorem SameKind.heldThroughReset_cons {rest rest' : List HostAction}
    (hrest : List.Forall₂ SameKind rest rest') :
    ∀ {act act' : HostAction}, SameKind act act' →
      List.Forall₂ SameKind (heldThroughReset (act :: rest)) (heldThroughReset (act' :: rest'))
  | .present _, .present _, h => .cons h hrest
  | .poll, .poll, h => .cons h hrest
  | .idle, .idle, _ => hrest

/-! ## Two states of the same control -/

namespace SameControl

variable {s s' : State}

theorem control_eq (h : SameControl s s') : s.control = s'.control :=
  Control.ext h.idx h.uf h.busy h.done

theorem of_control_eq (hcontrol : s.control = s'.control)
    (hprogram : List.Forall₂ SameKind s.program s'.program) (hrstN : s.rstN = s'.rstN) :
    SameControl s s' := by
  obtain ⟨hIDX, hUF, hBUSY, hDONE⟩ := Control.mk.inj hcontrol
  exact ⟨hIDX, hUF, hBUSY, hDONE, hprogram, hrstN⟩

theorem rstLevel_eq (h : SameControl s s') : s.rstLevel = s'.rstLevel := by
  rw [State.rstLevel, State.rstLevel, h.rstN]

/-- The host has nothing on either port, or two actions of the same kind. -/
theorem program_cases (h : SameControl s s') :
    (s.program = [] ∧ s'.program = []) ∨
    ∃ act act' rest rest', s.program = act :: rest ∧ s'.program = act' :: rest' ∧
      SameKind act act' ∧ List.Forall₂ SameKind rest rest' := by
  have hprogram := h.program
  generalize s.program = p, s'.program = p' at hprogram
  cases hprogram with
  | nil => exact .inl ⟨rfl, rfl⟩
  | cons hhead hrest => exact .inr ⟨_, _, _, _, rfl, rfl, hhead, hrest⟩

theorem commandOnPort_eq (h : SameControl s s') : s.commandOnPort = s'.commandOnPort := by
  rcases h.program_cases with ⟨hp, hp'⟩ | ⟨act, act', rest, rest', hp, hp', hhead, -⟩
  · rw [State.commandOnPort_nil hp, State.commandOnPort_nil hp']
  · rw [State.commandOnPort_cons hp, State.commandOnPort_cons hp', hhead.command_eq]

/-- The engine's step makes the same of the same control fields, whatever S and M are (R121). -/
theorem engineStep_control_eq (h : SameControl s s') :
    (engineStep s).control = (engineStep s').control := by
  simp only [State.control, engineStep_IDX, engineStep_UF, engineStep_BUSY, engineStep_DONE, h.idx,
    h.uf, h.busy, h.done]

theorem portControl_eq (h : SameControl s s') : s.portControl = s'.portControl := by
  rw [State.portControl, State.portControl, h.busy, h.engineStep_control_eq, h.commandOnPort_eq,
    h.control_eq]
  rfl

theorem nextControl_eq (h : SameControl s s') : s.nextControl = s'.nextControl := by
  rw [State.nextControl, State.nextControl, h.rstLevel_eq, h.portControl_eq]
  rfl

theorem portProgram_sameKind (h : SameControl s s') :
    List.Forall₂ SameKind s.portProgram s'.portProgram := by
  rcases h.program_cases with ⟨hp, hp'⟩ | ⟨act, act', rest, rest', hp, hp', hhead, hrest⟩
  · simp [State.portProgram, hp, hp']
  · rw [State.portProgram_cons hp, State.portProgram_cons hp', hhead.taken_eq h.busy]
    split
    · exact hrest
    · exact .cons hhead hrest

theorem heldThroughReset_sameKind (h : SameControl s s') :
    List.Forall₂ SameKind (heldThroughReset s.program) (heldThroughReset s'.program) := by
  rcases h.program_cases with ⟨hp, hp'⟩ | ⟨act, act', rest, rest', hp, hp', hhead, hrest⟩
  · simp [heldThroughReset, hp, hp']
  · rw [hp, hp']
    exact hhead.heldThroughReset_cons hrest

theorem nextProgram_sameKind (h : SameControl s s') :
    List.Forall₂ SameKind s.nextProgram s'.nextProgram := by
  rw [State.nextProgram, State.nextProgram, ← h.rstLevel_eq]
  split
  · exact h.portProgram_sameKind
  · exact h.heldThroughReset_sameKind

/-- The relation is kept by an edge of the two machines (R29). -/
theorem of_controlEdge {t t' : State} (h : SameControl s s') (ht : ControlEdge s t)
    (ht' : ControlEdge s' t') : SameControl t t' := by
  refine of_control_eq ?_ ?_ ?_
  · rw [ht.control, ht'.control, h.nextControl_eq]
  · rw [ht.program, ht'.program]; exact h.nextProgram_sameKind
  · rw [ht.rstN, ht'.rstN, h.rstN]

/-- The relation is kept by any number of edges. -/
theorem run (n : Nat) (h : SameControl s s') :
    ∃ t t', Machine.run n s = .next t ∧ Machine.run n s' = .next t' ∧ SameControl t t' := by
  induction n generalizing s s' with
  | zero => exact ⟨s, s', rfl, rfl, h⟩
  | succ n ih =>
    obtain ⟨u, hstep, hu⟩ := exists_step_controlEdge s
    obtain ⟨u', hstep', hu'⟩ := exists_step_controlEdge s'
    obtain ⟨t, t', hrun, hrun', ht⟩ := ih (h.of_controlEdge hu hu')
    refine ⟨t, t', ?_, ?_, ht⟩
    · simp only [Machine.run, hstep, hrun]
    · simp only [Machine.run, hstep', hrun']

end SameControl

/-- Settles O41: states of the same control stay so, edge by edge. -/
theorem dataNeverInfluencesControl : Obligations.DataNeverInfluencesControl := by
  unfold Obligations.DataNeverInfluencesControl
  exact fun n s s' h => h.run n

end Sys2Proof.Machine
end

section
/-! PROOFS. Who writes UF, IDX, BUSY, DONE (R26 to R28). -/

namespace Sys2Proof.Machine

/-- Outside reset the outputs carry the flags (R50). -/
theorem busyPin_of_level {s : State} (hr : s.rstLevel = true) : busyPin s = s.BUSY := by
  simp [busyPin, hr]

theorem donePin_of_level {s : State} (hr : s.rstLevel = true) : donePin s = s.DONE := by
  simp [donePin, hr]

/-- While a compress runs, any transaction but a read of STATUS stays on the port (R57). -/
theorem State.portProgram_of_held {s : State} {r : Request} {rest : List HostAction}
    (hb : s.BUSY = true) (hp : s.program = .present r :: rest)
    (hr : ¬ (r.we = false ∧ r.addr = statusAddr)) : s.portProgram = s.program := by
  have hheld : reqReady s r.we r.addr = false := by
    rw [reqReady_of_busy hb]; simpa using hr
  rw [State.portProgram_cons hp, HostAction.taken, hheld, if_neg Bool.false_ne_true, hp]

/-- The control fields one engine step on (R25 to R28, R121). -/
theorem control_of_engineStep {s t : State} (hb : s.BUSY = true)
    (ht : t.control = (engineStep s).control) :
    t.UF = s.UF ∧ t.IDX = s.IDX + BitVec.ofNat 7 (2 ^ s.UF.toNat) ∧
      (t.IDX = 64 → t.BUSY = false ∧ t.DONE = true) ∧
      (t.IDX ≠ 64 → t.BUSY = true ∧ t.DONE = s.DONE) := by
  obtain ⟨hIDX, hUF, hBUSY, hDONE⟩ := Control.mk.inj ht
  rw [hUF, hBUSY, hDONE, hIDX, ← unrollFactor_eq_two_pow]
  exact ⟨engineStep_UF s, engineStep_IDX s, engineStep_last, fun h => hb ▸ engineStep_not_last h⟩

/-- Settles O40: a clause per branch of State.nextControl. -/
theorem controlFieldsFollowCommandsAndEngine :
    Obligations.ControlFieldsFollowCommandsAndEngine := by
  unfold Obligations.ControlFieldsFollowCommandsAndEngine
  refine ⟨fun s hr => ?_, fun s hr => ⟨busyPin_of_level hr, donePin_of_level hr, ?_⟩⟩
  · obtain ⟨t, hstep, hcontrol, -, -⟩ := exists_step_controlEdge s
    obtain ⟨hIDX, hUF, hBUSY, hDONE⟩ :=
      Control.mk.inj (hcontrol.trans (State.nextControl_of_reset hr))
    exact ⟨t, hstep, hUF, hIDX, hBUSY, hDONE⟩
  · obtain ⟨t, hstep, hcontrol, hprogram, -⟩ := exists_step_controlEdge s
    rw [State.nextControl_of_level hr] at hcontrol
    rw [State.nextProgram_of_level hr] at hprogram
    refine ⟨t, hstep, ?_, ?_, ?_, ?_⟩
    · exact fun r rest hb hp hnot => hprogram.trans (State.portProgram_of_held hb hp hnot)
    · intro hb
      exact control_of_engineStep hb (hcontrol.trans (State.portControl_of_busy hb))
    · intro sel hb hc
      obtain ⟨hIDX, hUF, hBUSY, hDONE⟩ :=
        Control.mk.inj (hcontrol.trans (State.portControl_of_command hb hc))
      exact ⟨hUF, hIDX, hBUSY, hDONE⟩
    · intro hb hc
      obtain ⟨hIDX, hUF, hBUSY, hDONE⟩ :=
        Control.mk.inj (hcontrol.trans (State.portControl_of_no_command hb hc))
      exact ⟨hUF, hIDX, hBUSY, hDONE⟩

end Sys2Proof.Machine
end

section
/-! PROOFS. STATUS and CTRL on the port (R34, R35). -/

namespace Sys2Proof.Machine

/-! ## The two addresses -/

/-- Of two fields side by side, the upper one counts in units of the lower one's range. -/
theorem toNat_append_eq_add {m n : Nat} (x : BitVec m) (y : BitVec n) :
    (x ++ y).toNat = x.toNat * 2 ^ n + y.toNat := by
  rw [BitVec.toNat_append, ← Nat.shiftLeft_add_eq_or_of_lt y.isLt, Nat.shiftLeft_eq]

/-- The STATUS word as the number R35 writes: its fields are disjoint bit ranges. -/
theorem statusWord_toNat (idx : BitVec 7) (uf : BitVec 2) (done busy : Bool) :
    (statusWord idx uf done busy).toNat =
      idx.toNat * 256 + uf.toNat * 4 + done.toNat * 2 + busy.toNat := by
  have hfields : (idx ++ 0b0000#4 ++ uf ++ BitVec.ofBool done ++ BitVec.ofBool busy).toNat =
      idx.toNat * 256 + uf.toNat * 4 + done.toNat * 2 + busy.toNat := by
    simp only [toNat_append_eq_add, BitVec.toNat_ofBool, BitVec.toNat_ofNat]
    omega
  rw [statusWord, BitVec.toNat_setWidth, hfields, Nat.mod_eq_of_lt]
  have hidx := idx.isLt
  have huf := uf.isLt
  have hdone := done.toNat_le
  have hbusy := busy.toNat_le
  omega

/-- A write of STATUS stores nothing (R35). -/
theorem memWrite_statusAddr (s : State) (v : Word) : memWrite s statusAddr v = s := by
  simp [memWrite]

/-- Two words with the same low three bits are the same command (R34, R85). -/
theorem command_eq_of_low {v w : Word} (h : v.extractLsb' 0 3 = w.extractLsb' 0 3) (s : State) :
    command s v = command s w := by
  rw [command, command, fieldStart_eq_of_low h, fieldUnrollSel_eq_of_low h]

theorem low_eq_of_mod_eq {v w : Word} (h : v.toNat % 8 = w.toNat % 8) :
    v.extractLsb' 0 3 = w.extractLsb' 0 3 :=
  BitVec.eq_of_toNat_eq (by simpa using h)

/-! ## RD and WR on the port -/

theorem exec_rd (addr : Addr) (unused : Word) (s : State) :
    exec (.rd addr unused) s = .next (readEdge s addr) := rfl

theorem exec_wr (addr : Addr) (v : Word) (s : State) :
    exec (.wr addr v) s = .next (writeEdge s addr fun t => memWrite t addr v) := rfl

/-- A write on the port of an idle engine is accepted (R57). -/
theorem exec_wr_of_idle {s : State} (hb : s.BUSY = false) (addr : Addr) (v : Word) :
    exec (.wr addr v) s = .next (memWrite s addr v).nextAction := by
  rw [exec_wr, writeEdge, reqReady_of_idle hb, if_pos rfl]

/-- A write of STATUS is accepted by an idle engine, without effect (R35). -/
theorem exec_wr_statusAddr_of_idle {s : State} (hb : s.BUSY = false) (v : Word) :
    exec (.wr statusAddr v) s = .next s.nextAction := by
  rw [exec_wr_of_idle hb, memWrite_statusAddr]

/-- A write of CTRL is its data word as a command (R82). -/
theorem exec_wr_ctrlAddr (v : Word) (s : State) :
    exec (.wr ctrlAddr v) s = .next (writeEdge s ctrlAddr fun t => command t v) := by
  simp only [exec_wr, memWrite_ctrlAddr]

theorem exec_wr_ctrlAddr_of_idle {s : State} (hb : s.BUSY = false) (v : Word) :
    exec (.wr ctrlAddr v) s = .next (command s v).nextAction := by
  rw [exec_wr_of_idle hb, memWrite_ctrlAddr]

/-- Two words with the same low three bits do the same when written to CTRL (R34). -/
theorem exec_wr_ctrlAddr_eq_of_low {v w : Word} (h : v.extractLsb' 0 3 = w.extractLsb' 0 3)
    (s : State) : exec (.wr ctrlAddr v) s = exec (.wr ctrlAddr w) s := by
  simp only [exec_wr_ctrlAddr, command_eq_of_low h]

/-- A read of STATUS is accepted at any time, and shows the state before the edge (R35, R67). -/
theorem exec_rd_statusAddr (s : State) (unused : Word) :
    exec (.rd statusAddr unused) s =
      .next ((engineEdge s).logRead (memRead s statusAddr)).nextAction := by
  have hready : reqReady s false statusAddr = true := by simp [reqReady]
  rw [exec_rd, readEdge, if_pos hready]

/-- While a compress runs, nothing but a read of STATUS is accepted: the edge is the engine's step
(R35, R57). -/
theorem exec_of_busy {i : Instr} {s : State} (hb : s.BUSY = true)
    (hi : ∀ unused, i ≠ .rd statusAddr unused) : exec i s = .next (engineStep s) := by
  cases i
  case rd addr unused =>
    have haddr : addr ≠ statusAddr := fun h => hi unused (h ▸ rfl)
    have hheld : reqReady s false addr = false := by simp [reqReady_of_busy hb, haddr]
    rw [exec_rd, readEdge, hheld, if_neg Bool.false_ne_true, engineEdge_of_busy hb]
  all_goals exact congrArg Host.Outcome.next (writeEdge_of_busy hb _ _)

/-- Settles O13: the read is accepted busy and idle, the write has no effect, the rest waits. -/
theorem statusShowsTheControlFields : Obligations.StatusShowsTheControlFields := by
  unfold Obligations.StatusShowsTheControlFields
  intro s v
  refine ⟨?_, fun hb => exec_wr_statusAddr_of_idle hb v, fun hb => ?_, fun hb => ?_,
    fun i hb hi => exec_of_busy hb hi, by decide⟩
  · exact (congrArg BitVec.toNat (memRead_statusAddr s)).trans (statusWord_toNat _ _ _ _)
  · refine (exec_rd_statusAddr s v).trans ?_
    rw [engineEdge_of_idle hb]; rfl
  · refine (exec_rd_statusAddr s v).trans ?_
    rw [engineEdge_of_busy hb, State.logRead, State.nextAction, engineStep_program,
      engineStep_readLog]
    rfl

/-- Settles O14: a write to CTRL is its data word as a command, and that is the start action or
nothing. -/
theorem ctrlIsTheCommandRegister : Obligations.CtrlIsTheCommandRegister := by
  unfold Obligations.CtrlIsTheCommandRegister
  intro s v
  refine ⟨memRead_ctrlAddr s, fun hb hv => ?_, fun hb hv => ?_, fun w hw => ?_, fun hb => ?_⟩
  · exact (exec_wr_ctrlAddr_of_idle hb v).trans (by rw [command_of_start hv]; rfl)
  · exact (exec_wr_ctrlAddr_of_idle hb v).trans (by rw [command_of_no_start hv]; rfl)
  · exact exec_wr_ctrlAddr_eq_of_low (low_eq_of_mod_eq hw) s
  · exact exec_of_busy hb (by simp)

end Sys2Proof.Machine
end

section
/-! PROOFS. An engine step reads the schedule at its own indices only (R31, R62). -/

namespace Sys2Proof.Machine

/-- Rounds i to i + n - 1 read the schedule at these indices only. -/
theorem roundsFrom_congr {m m' : Schedule} {i n : Nat}
    (h : ∀ k, i ≤ k → k < i + n → mWord m k = mWord m' k) (s : HashState) :
    roundsFrom m i n s = roundsFrom m' i n s := by
  induction n with
  | zero => rfl
  | succ n ih =>
    have hfirst := ih fun k hk hlt => h k hk (hlt.trans (Nat.lt_succ_self _))
    have hlast := h (i + n) (Nat.le_add_right i n) (Nat.lt_succ_self _)
    rw [roundsFrom_succ, roundsFrom_succ, hfirst, roundAt, roundAt, hlast]

/-- Within the invariant no index of the step is above 63, where the two schedules have words. -/
theorem mWord_eq_of_agree {s : State} {m : Schedule} (hs : s.Inv) (hb : s.BUSY = true)
    (h : ∀ i : Fin 64, s.IDX.toNat ≤ i.val → i.val < s.IDX.toNat + unrollFactor s.UF →
      m.get i = s.M.get i) (k : Nat) (hk : s.IDX.toNat ≤ k)
    (hlt : k < s.IDX.toNat + unrollFactor s.UF) : mWord s.M k = mWord m k := by
  have hk64 : k < 64 := hlt.trans_le (hs.idx_add_unrollFactor_le hb)
  rw [mWord_of_lt _ hk64, mWord_of_lt _ hk64]
  exact (h ⟨k, hk64⟩ hk hlt).symm

/-- Settles O24: both steps are the rounds IDX to IDX + U - 1, each on the word of its own index. -/
theorem engineStepReadsOnlyItsScheduleWords : Obligations.EngineStepReadsOnlyItsScheduleWords := by
  unfold Obligations.EngineStepReadsOnlyItsScheduleWords
  intro s m hs hb hr h
  obtain ⟨_, _, hstep⟩ := step_of_busy hr hb
  obtain ⟨_, _, hstep'⟩ := step_of_busy (s := { s with M := m }) hr hb
  refine ⟨_, _, hstep, hstep', ?_⟩
  change (engineStep { s with M := m }).S = (engineStep s).S
  rw [engineStep_S, engineStep_S, loopBody_eq_roundsFrom, loopBody_eq_roundsFrom]
  exact (roundsFrom_congr (mWord_eq_of_agree hs hb h) s.S).symm

end Sys2Proof.Machine
end

section
/-! PROOFS. The round constants from their definition (R33). -/

namespace Sys2Proof.Machine

/-- The first 64 primes, as R33 lists them. -/
def firstPrimes : Vector Nat 64 :=
  #v[2, 3, 5, 7, 11, 13, 17, 19, 23, 29, 31, 37, 41, 43, 47, 53, 59, 61, 67, 71, 73, 79, 83, 89, 97,
     101, 103, 107, 109, 113, 127, 131, 137, 139, 149, 151, 157, 163, 167, 173, 179, 181, 191, 193,
     197, 199, 211, 223, 227, 229, 233, 239, 241, 251, 257, 263, 269, 271, 277, 281, 283, 293, 307,
     311]

/-- A number below 19 * 19 is prime if no number below 19 divides it. -/
theorem prime_iff_no_divisor_below {n : Nat} (hn : n < 19 ^ 2) :
    n.Prime ↔ 2 ≤ n ∧ ∀ m < 19, 2 ≤ m ∧ m < n → ¬ m ∣ n := by
  constructor
  · intro hp
    obtain ⟨h2, hdiv⟩ := Nat.prime_def_lt'.mp hp
    exact ⟨h2, fun m _ ⟨hm, hlt⟩ => hdiv m hm hlt⟩
  · rintro ⟨h2, hdiv⟩
    have hsqrt : n.sqrt < 19 := Nat.sqrt_lt'.mpr hn
    have hself : n.sqrt < n := Nat.sqrt_lt_self h2
    exact Nat.prime_def_le_sqrt.mpr
      ⟨h2, fun m hm hle => hdiv m (hle.trans_lt hsqrt) ⟨hm, hle.trans_lt hself⟩⟩

/-- The list is complete: these are the primes up to 311. -/
theorem filter_prime_range : (List.range 312).filter (Nat.Prime ·) = firstPrimes.toList := by
  have hsieve : (List.range 312).filter (Nat.Prime ·) =
      (List.range 312).filter fun n => 2 ≤ n ∧ ∀ m < 19, 2 ≤ m ∧ m < n → ¬ m ∣ n := by
    refine List.filter_congr fun n hn => decide_eq_decide.mpr ?_
    exact prime_iff_no_divisor_below ((List.mem_range.mp hn).trans (by decide))
  rw [hsieve]
  decide +kernel

/-- The i-th entry of the list of all numbers with `p` below a bound is the i-th number with `p`. -/
theorem nth_eq_of_getElem?_filter_range {p : Nat → Prop} [DecidablePred p] {n i k : Nat}
    (h : ((List.range n).filter (p ·))[i]? = some k) : Nat.nth p i = k := by
  induction n with
  | zero => simp at h
  | succ n ih =>
    rw [List.range_succ, List.filter_append, List.getElem?_append] at h
    split at h
    · exact ih h
    · have hcount : Nat.count p n = ((List.range n).filter (p ·)).length :=
        List.countP_eq_length_filter
      by_cases hp : p n
      · obtain ⟨hi, rfl⟩ : i ≤ Nat.count p n ∧ n = k := by
          simpa [hp, hcount, List.getElem?_singleton, Nat.sub_eq_zero_iff_le] using h
        have hi' : i = Nat.count p n := by omega
        rw [hi', Nat.nth_count hp]
      · simp [hp] at h

theorem nth_prime_eq_firstPrimes (i : Fin 64) : Nat.nth Nat.Prime i = firstPrimes.get i := by
  apply nth_eq_of_getElem?_filter_range (n := 312)
  rw [filter_prime_range]
  simp [Vector.get]

/-- `r` is the cube root of `n`, rounded down. -/
abbrev IsFloorCubeRoot (r n : Nat) : Prop := r ^ 3 ≤ n ∧ n < (r + 1) ^ 3

/-- The integer part of the cube root of a number below 7^3: how many of 1 to 6 have a cube up to
it. -/
def smallCubeRoot (n : Nat) : Nat := (List.range 6).countP fun k => (k + 1) ^ 3 ≤ n

/-- The integer part of the cube root of `p`, followed by `word` as 32 bits of fraction. -/
def cubeRootWithFraction (p : Nat) (word : Word) : Nat := smallCubeRoot p * 2 ^ 32 + word.toNat

theorem cubeRootWithFraction_mod (p : Nat) (word : Word) :
    cubeRootWithFraction p word % 2 ^ 32 = word.toNat :=
  Nat.mul_add_mod_of_lt word.isLt

/-- Each entry of the rows is the fraction that belongs to the prime of its index (R33). -/
theorem isFloorCubeRoot_kRows (row : Fin 16) (col : Fin 4) :
    IsFloorCubeRoot
      (cubeRootWithFraction (firstPrimes.get ⟨4 * row + col, by omega⟩) ((kRows.get row).get col))
      (firstPrimes.get ⟨4 * row + col, by omega⟩ * 2 ^ 96) := by
  revert row col; decide +kernel

/-- An entry of the table by its row and column (R33). -/
theorem kTable_get (i : Fin 64) :
    kTable.get i = (kRows.get ⟨i / 4, by omega⟩).get ⟨i % 4, by omega⟩ :=
  Vector.getElem_ofFn i.isLt

theorem isFloorCubeRoot_kTable (i : Fin 64) :
    IsFloorCubeRoot (cubeRootWithFraction (firstPrimes.get i) (kTable.get i))
      (firstPrimes.get i * 2 ^ 96) := by
  have hentry := isFloorCubeRoot_kRows ⟨i / 4, by omega⟩ ⟨i % 4, by omega⟩
  simpa only [← kTable_get, Nat.div_add_mod] using hentry

/-- Settles O34: the root in units of 2^-32 is its integer part and K[i] behind it. -/
theorem roundConstantsAreCubeRootFractions : Obligations.RoundConstantsAreCubeRootFractions := by
  unfold Obligations.RoundConstantsAreCubeRootFractions
  intro i
  obtain ⟨hle, hlt⟩ := isFloorCubeRoot_kTable i
  rw [nth_prime_eq_firstPrimes]
  exact ⟨_, hle, hlt, (cubeRootWithFraction_mod _ _).symm⟩

end Sys2Proof.Machine
end

section
/-! PROOFS. A held transaction waits, and is accepted within 64 edges (R57, R58, R184). -/

namespace Sys2Proof.Machine

/-- The interlock holds a transaction only while a compress runs (R57). -/
theorem busy_of_held {s : State} {we : Bool} {addr : Addr} (h : reqReady s we addr = false) :
    s.BUSY = true := by
  rw [reqReady, Bool.or_eq_false_iff, Bool.not_eq_false'] at h
  exact h.1

/-- An edge at which the transaction on the port is held is the engine's step alone (R58). -/
theorem step_of_held {s : State} {r : Request} {rest : List HostAction} (hr : s.rstLevel = true)
    (hp : s.program = .present r :: rest) (hheld : reqReady s r.we r.addr = false) :
    step s = .next (engineStep s).nextLevel := by
  have hwait : hostPart s.nextLevel r = s.nextLevel := if_neg (Bool.eq_false_iff.mp hheld)
  rw [step_eq_engineStep_hostPart hr hp, hwait, busy_of_held hheld, if_pos rfl, engineStep_nextLevel]

/-- An edge at which the transaction on the port is let through takes it from the port (R51, R57). -/
theorem exists_step_of_ready {s : State} {r : Request} {rest : List HostAction}
    (hr : s.rstLevel = true) (hp : s.program = .present r :: rest)
    (hready : reqReady s r.we r.addr = true) : ∃ t, step s = .next t ∧ t.program = rest := by
  obtain ⟨t, hstep, -, hprogram, -⟩ := exists_step_controlEdge s
  refine ⟨t, hstep, hprogram.trans ?_⟩
  rw [State.nextProgram_of_level hr, State.portProgram_cons hp, HostAction.taken, if_pos hready]

/-- How many rounds are left of a running compress: what a held transaction waits for. -/
def State.roundsLeft (s : State) : Nat := if s.BUSY then 64 - s.IDX.toNat else 0

theorem State.roundsLeft_le (s : State) : s.roundsLeft ≤ 64 - s.IDX.toNat := by
  unfold State.roundsLeft; split <;> omega

/-- Every engine step performs a round at least (R121). -/
theorem engineStep_roundsLeft_lt {s : State} (hs : s.Inv) (hb : s.BUSY = true) :
    (engineStep s).roundsLeft < s.roundsLeft := by
  have hroom := hs.idx_add_unrollFactor_le hb
  have hidx := engineStep_IDX_toNat hroom
  have hpos := unrollFactor_pos s.UF
  have hnext := (engineStep s).roundsLeft_le
  have hnow : s.roundsLeft = 64 - s.IDX.toNat := if_pos hb
  omega

/-- A transaction stays presented while the rounds left are performed, and is let through after at most
one edge for each of them (R58). -/
theorem exists_run_ready {s : State} {r : Request} {rest : List HostAction} (hs : s.Inv)
    (hn : s.NoReset) (hp : s.program = .present r :: rest) :
    ∃ n t, n ≤ s.roundsLeft ∧ run n s = .next t ∧ t.NoReset ∧ t.program = .present r :: rest ∧
      reqReady t r.we r.addr = true := by
  induction hleft : s.roundsLeft using Nat.strong_induction_on generalizing s with
  | _ left ih =>
    subst hleft
    cases hready : reqReady s r.we r.addr
    · have hb := busy_of_held hready
      have hless := engineStep_roundsLeft_lt hs hb
      have hs' : (engineStep s).nextLevel.Inv := (engineStep_inv hs hb).of_control_eq rfl
      have hn' : (engineStep s).nextLevel.NoReset :=
        hn.of_rstN_tail (congrArg List.tail (engineStep_rstN s))
      have hp' : (engineStep s).nextLevel.program = .present r :: rest :=
        (engineStep_program s).trans hp
      obtain ⟨n, t, hle, hrun, ht⟩ := ih _ hless hs' hn' hp' rfl
      refine ⟨n + 1, t, hle.trans_lt hless, ?_, ht⟩
      simp only [run, step_of_held hn.rstLevel hp hready, hrun]
    · exact ⟨0, s, Nat.zero_le _, rfl, hn, hp, hready⟩

/-- Settles O39: at most 64 rounds are left, and the edge after the wait accepts. -/
theorem heldTransactionIsAccepted : Obligations.HeldTransactionIsAccepted := by
  unfold Obligations.HeldTransactionIsAccepted
  intro s r rest hs hn hp
  obtain ⟨n, t, hle, hrun, hnt, hpt, hready⟩ := exists_run_ready hs hn hp
  obtain ⟨u, hstep, hpu⟩ := exists_step_of_ready hnt.rstLevel hpt hready
  have hpin : reqReadyPin t r = true := by simp [reqReadyPin, hnt.rstLevel, hready]
  have hleft : s.roundsLeft ≤ 64 := s.roundsLeft_le.trans (Nat.sub_le _ _)
  exact ⟨n, t, u, hle.trans hleft, hrun, hpt, hpin, hstep, hpu⟩

end Sys2Proof.Machine
end

section
/-! PROOFS. What an edge accepts and what it logs (R51, R53, R57, R58, R63). -/

namespace Sys2Proof.Machine

/-- A read edge logs the word read if the read is let through, and nothing if it is held (R54). -/
theorem readEdge_readLog (s : State) (addr : Addr) :
    (readEdge s addr).readLog =
      s.readLog ++ if reqReady s false addr then [memRead s addr] else [] := by
  unfold readEdge; split <;> simp

/-- The edge of a write logs nothing (R55). -/
theorem writeEdge_memWrite_readLog (s : State) (addr : Addr) (v : Word) :
    (writeEdge s addr fun t => memWrite t addr v).readLog = s.readLog := by
  unfold writeEdge; split <;> simp [memWrite_readLog]

/-! ## A transaction on the port -/

/-- Outside reset `req_ready` is the interlock's function (R57). -/
theorem reqReadyPin_of_level {s : State} (hr : s.rstLevel = true) (r : Request) :
    reqReadyPin s r = reqReady s r.we r.addr := by
  simp [reqReadyPin, hr]

/-- The interlock, in the words of R57. -/
theorem reqReady_iff (s : State) (r : Request) :
    reqReady s r.we r.addr = true ↔ s.BUSY = false ∨ (r.we = false ∧ r.addr = statusAddr) := by
  simp [reqReady]

/-- The word an edge logs of a transaction is the one that `rsp_rdata` has in that cycle (R54). -/
theorem exists_step_readLog_of_present {s : State} {r : Request} {rest : List HostAction}
    (hr : s.rstLevel = true) (hp : s.program = .present r :: rest) :
    ∃ t, step s = .next t ∧ t.readLog = s.readLog ++ (rspRdataPin s r).toList := by
  refine ⟨_, step_present hr hp, ?_⟩
  rw [rspRdataPin, reqReadyPin_of_level hr]
  cases hw : r.we
  · refine (readEdge_readLog s.nextLevel r.addr).trans ?_
    change s.readLog ++ (if reqReady s false r.addr then _ else _) = _
    cases reqReady s false r.addr <;> rfl
  · refine (writeEdge_memWrite_readLog s.nextLevel r.addr r.wdata).trans ?_
    simp

/-- Settles O15. -/
theorem interlockDecidesAcceptance : Obligations.InterlockDecidesAcceptance := by
  unfold Obligations.InterlockDecidesAcceptance
  intro s r rest hr hp
  obtain ⟨t, hstep, hlog⟩ := exists_step_readLog_of_present hr hp
  obtain ⟨t', hstep', -, hprogram, -⟩ := exists_step_controlEdge s
  obtain rfl : t = t' := Host.Outcome.next.inj (hstep.symm.trans hstep')
  rw [reqReadyPin_of_level hr]
  refine ⟨reqReady_iff s r, t, hstep, hprogram.trans ?_, hlog⟩
  rw [State.nextProgram_of_level hr, State.portProgram_cons hp, HostAction.taken]

/-- An edge with nothing presented is the engine's alone (R181). -/
theorem step_of_nothing {s : State} (hr : s.rstLevel = true) (hp : s.program = []) :
    step s = .next (engineEdge s).nextLevel := by
  simp [step, clockEdge, hr, portEdge, hp, engineEdge_nextLevel]

/-- Settles O16: both edges are the engine's step, which does not see what is presented. -/
theorem heldTransactionHasNoEffect : Obligations.HeldTransactionHasNoEffect := by
  unfold Obligations.HeldTransactionHasNoEffect
  intro s r rest hr hp hb hnot
  have hheld : reqReady s r.we r.addr = false := by
    rw [Bool.eq_false_iff, ne_eq, reqReady_iff, hb]
    exact fun h => hnot (h.resolve_left Bool.noConfusion)
  have hengine : engineEdge { s with program := [] } = { engineStep s with program := [] } :=
    (engineEdge_of_busy (s := { s with program := [] }) hb).trans (engineStep_withProgram s [])
  refine ⟨_, step_of_nothing (s := { s with program := [] }) hr rfl, ?_⟩
  rw [step_of_held hr hp hheld, hengine, ← hp, ← engineStep_program s]
  rfl

/-! ## Any edge -/

theorem State.portProgram_eq_or_tail (s : State) :
    s.portProgram = s.program ∨ s.portProgram = s.program.tail := by
  rcases hp : s.program with _ | ⟨act, rest⟩
  · simp [State.portProgram, hp]
  · rw [State.portProgram_cons hp]
    split
    · exact .inr rfl
    · exact .inl rfl

theorem heldThroughReset_eq_or_tail (p : List HostAction) :
    heldThroughReset p = p ∨ heldThroughReset p = p.tail := by
  unfold heldThroughReset; split <;> simp

/-- The host goes on by one action at most (R51). -/
theorem State.nextProgram_eq_or_tail (s : State) :
    s.nextProgram = s.program ∨ s.nextProgram = s.program.tail := by
  unfold State.nextProgram; split
  · exact s.portProgram_eq_or_tail
  · exact heldThroughReset_eq_or_tail s.program

/-- What an edge from `s` to `t` can log: nothing, or the word of a read that the interlock lets through,
as it stood before the edge, and with that the host goes on (R53, R54, R57). -/
def LogsOneReadAtMost (s t : State) : Prop :=
  t.readLog = s.readLog ∨
    ∃ addr, reqReady s false addr = true ∧ t.program = s.program.tail ∧
      t.readLog = s.readLog ++ [memRead s addr]

theorem readEdge_logsOneReadAtMost (s : State) (addr : Addr) :
    LogsOneReadAtMost s (readEdge s addr) := by
  have hlog := readEdge_readLog s addr
  have hprogram := readEdge_program s addr
  cases hready : reqReady s false addr
  · exact .inl (by simpa [hready] using hlog)
  · exact .inr ⟨addr, hready, by simpa [hready] using hprogram, by simpa [hready] using hlog⟩

theorem exists_portEdge_logsOneReadAtMost (s : State) :
    ∃ t, portEdge s = .next t ∧ LogsOneReadAtMost s t := by
  rcases portEdge_cases s with ⟨addr, -, read⟩ | ⟨r, -, -, -, write⟩ | ⟨-, -, read⟩ |
    ⟨-, nothing⟩ | ⟨-, nothing⟩
  · exact ⟨_, read, readEdge_logsOneReadAtMost s addr⟩
  · exact ⟨_, write, .inl (writeEdge_memWrite_readLog s r.addr r.wdata)⟩
  · exact ⟨_, read, readEdge_logsOneReadAtMost s statusAddr⟩
  · exact ⟨_, nothing, .inl (engineEdge_readLog s)⟩
  · exact ⟨_, nothing, .inl (engineEdge_readLog s)⟩

theorem exists_step_logsOneReadAtMost (s : State) : ∃ t, step s = .next t ∧ LogsOneReadAtMost s t := by
  rcases step_cases s with ⟨-, hstep⟩ | ⟨-, hstep⟩
  · obtain ⟨t, hport, hlogs⟩ := exists_portEdge_logsOneReadAtMost s.nextLevel
    exact ⟨t, hstep.trans hport, hlogs⟩
  · exact ⟨_, hstep, .inl rfl⟩

/-- Settles O18. -/
theorem atMostOneTransactionPerEdge : Obligations.AtMostOneTransactionPerEdge := by
  unfold Obligations.AtMostOneTransactionPerEdge
  intro s
  obtain ⟨t, hstep, hlogs⟩ := exists_step_logsOneReadAtMost s
  obtain ⟨t', hstep', -, hprogram, -⟩ := exists_step_controlEdge s
  obtain rfl : t = t' := Host.Outcome.next.inj (hstep.symm.trans hstep')
  refine ⟨t, hstep, hprogram ▸ s.nextProgram_eq_or_tail, ?_⟩
  exact hlogs.imp_right fun ⟨addr, _, hnext, hlog⟩ => ⟨hnext, memRead s addr, hlog⟩

/-- Settles O19: of a busy engine the interlock lets a read of STATUS through and no other. -/
theorem onlyStatusIsReadDuringACompress : Obligations.OnlyStatusIsReadDuringACompress := by
  unfold Obligations.OnlyStatusIsReadDuringACompress
  intro s hb
  obtain ⟨t, hstep, hlogs⟩ := exists_step_logsOneReadAtMost s
  refine ⟨t, hstep, hlogs.imp_right fun ⟨addr, hready, _, hlog⟩ => ?_⟩
  obtain rfl : addr = statusAddr := by simpa [reqReady_of_busy hb] using hready
  exact hlog

/-- Settles O25: an edge of a busy engine is its step, but for the host's own lists. -/
theorem tablesAreStableDuringACompress : Obligations.TablesAreStableDuringACompress := by
  unfold Obligations.TablesAreStableDuringACompress
  refine ⟨fun s hb hr => ?_, memRead_ktabAddr⟩
  obtain ⟨actions, log, hstep⟩ := step_of_busy hr hb
  exact ⟨_, hstep, engineStep_M s, rfl⟩

/-- Settles O17: a read of STATUS is the one instruction that does not wait. -/
theorem writesAndCommandsWaitWhileBusy : Obligations.WritesAndCommandsWaitWhileBusy := by
  unfold Obligations.WritesAndCommandsWaitWhileBusy
  exact fun i s hb hi => exec_of_busy hb (hi statusAddr)

end Sys2Proof.Machine
end

section
/-! PROOFS. What RD and WR do at every address (R54, R55, R56, R61). -/

namespace Sys2Proof.Machine

/-! ## The address map by the address bits -/

/-- The map of R56 in the terms of the pseudocode of R54 and R55: the upper bits of the address choose
the row, and the lower bits are the index in it. -/
theorem target_eq_bits (addr : Addr) :
    target addr =
      if addr.extractLsb' 3 5 = 0 then .stateWord (addr.extractLsb' 0 3).toFin
      else if addr = ctrlAddr then .ctrl
      else if addr = statusAddr then .status
      else if addr.extractLsb' 6 2 = 0b01 then .sched (addr.extractLsb' 0 6).toFin
      else if addr.extractLsb' 6 2 = 0b10 then .ktab (addr.extractLsb' 0 6).toFin
      else .reserved := by
  revert addr; decide

/-- `MemRead` as R54 writes it. -/
theorem memRead_eq_bits (s : State) (addr : Addr) :
    memRead s addr =
      if addr.extractLsb' 3 5 = 0 then s.S.get (addr.extractLsb' 0 3).toFin
      else if addr = ctrlAddr then 0
      else if addr = statusAddr then statusWord s.IDX s.UF s.DONE s.BUSY
      else if addr.extractLsb' 6 2 = 0b01 then s.M.get (addr.extractLsb' 0 6).toFin
      else if addr.extractLsb' 6 2 = 0b10 then kTable.get (addr.extractLsb' 0 6).toFin
      else 0 := by
  rw [memRead, target_eq_bits]
  split_ifs <;> rfl

/-- `MemWrite` as R55 writes it. -/
theorem memWrite_eq_bits (s : State) (addr : Addr) (v : Word) :
    memWrite s addr v =
      if addr.extractLsb' 3 5 = 0 then s.writeS (addr.extractLsb' 0 3).toFin v
      else if addr = ctrlAddr then command s v
      else if addr.extractLsb' 6 2 = 0b01 then s.writeM (addr.extractLsb' 0 6).toFin v
      else s := by
  by_cases hstatus : addr = statusAddr
  · subst hstatus; exact memWrite_statusAddr s v
  · rw [memWrite, target_eq_bits, if_neg hstatus]
    split_ifs <;> rfl

/-! ## Reads and writes on the port -/

/-- An accepted read logs its word, and the engine has its step (R54, R67). -/
theorem readEdge_of_ready {s : State} {addr : Addr} (h : reqReady s false addr = true) :
    readEdge s addr = ((engineEdge s).logRead (memRead s addr)).nextAction :=
  if_pos h

/-- Beside the log and the host's actions, an accepted read leaves what the engine's step leaves. -/
theorem readEdge_engine {s : State} {addr : Addr} (h : reqReady s false addr = true) :
    { readEdge s addr with readLog := s.readLog, program := s.program } = engineEdge s := by
  rw [readEdge_of_ready h, ← engineEdge_readLog s, ← engineEdge_program s]
  rfl

/-- Settles O9. -/
theorem readReturnsTheAddressedWord : Obligations.ReadReturnsTheAddressedWord := by
  unfold Obligations.ReadReturnsTheAddressedWord
  intro s addr unused hlet
  have hready : reqReady s false addr = true :=
    (reqReady_iff s ⟨false, addr, unused⟩).mpr (hlet.imp_right fun h => ⟨rfl, h⟩)
  refine ⟨_, exec_rd addr unused s, ?_, ?_, fun hb => ?_, fun hb => ?_⟩
  · rw [readEdge_readLog, if_pos hready, memRead_eq_bits]; rfl
  · rw [readEdge_program, if_pos hready]
  · rw [readEdge_engine hready, engineEdge_of_idle hb]
  · rw [readEdge_engine hready, engineEdge_of_busy hb]

/-- Settles O10. -/
theorem writeDoesWhatTheAddressSelects : Obligations.WriteDoesWhatTheAddressSelects := by
  unfold Obligations.WriteDoesWhatTheAddressSelects
  intro s addr v hb
  rw [exec_wr_of_idle hb, State.nextAction, memWrite_program, memWrite_eq_bits]
  rfl

/-! ## What a write leaves alone -/

/-- A read of any address but STATUS shows S, M and K only. -/
theorem memRead_congr_of_ne_status {s t : State} (hS : t.S = s.S) (hM : t.M = s.M) {addr : Addr}
    (h : addr ≠ statusAddr) : memRead t addr = memRead s addr := by
  simp only [memRead_eq_bits, hS, hM, if_neg h]

/-- A write to a word of S shows at its own address only (R55). -/
theorem memRead_writeS_of_ne (s : State) {i : Fin 8} (v : Word) {addr : Addr}
    (h : addr ≠ stateAddr i) : memRead (s.writeS i v) addr = memRead s addr := by
  unfold memRead
  cases hj : target addr
  case stateWord j =>
    have hij : i ≠ j := fun hij => h (hij ▸ eq_stateAddr_of_target hj)
    exact HashState.get_set_of_ne s.S v hij
  all_goals rfl

/-- A write to a word of M shows at its own address only (R55). -/
theorem memRead_writeM_of_ne (s : State) {i : Fin 64} (v : Word) {addr : Addr}
    (h : addr ≠ schedAddr i) : memRead (s.writeM i v) addr = memRead s addr := by
  unfold memRead
  cases hj : target addr
  case sched j =>
    have hij : i ≠ j := fun hij => h (hij ▸ eq_schedAddr_of_target hj)
    exact Vector.getElem_set_ne i.isLt j.isLt (Fin.val_ne_of_ne hij)
  all_goals rfl

/-- The address names a word that the host can write: one of S or of M (R56). -/
abbrev NamesStoredWord (addr : Addr) : Prop :=
  addr.toNat < 0x08 ∨ (0x40 ≤ addr.toNat ∧ addr.toNat < 0x80)

theorem namesStoredWord_iff (addr : Addr) :
    NamesStoredWord addr ↔ (∃ i, addr = stateAddr i) ∨ ∃ i, addr = schedAddr i := by
  constructor
  · rintro (h | ⟨hlo, hhi⟩)
    · exact .inl ⟨⟨addr.toNat, h⟩, by simp [stateAddr]⟩
    · exact .inr ⟨⟨addr.toNat - 0x40, by omega⟩, by simp [schedAddr, hlo]⟩
  · rintro (⟨i, rfl⟩ | ⟨i, rfl⟩)
    · exact .inl (by rw [stateAddr, BitVec.toNat_ofNat]; omega)
    · exact .inr (by rw [schedAddr, BitVec.toNat_ofNat]; omega)

/-- Away from CTRL and from the words of S and M a write has no effect (R55). -/
theorem memWrite_of_not_stored {addr : Addr} (hctrl : addr ≠ ctrlAddr)
    (h : ¬ NamesStoredWord addr) (s : State) (v : Word) : memWrite s addr v = s := by
  rw [namesStoredWord_iff, not_or] at h
  unfold memWrite
  cases hi : target addr
  case stateWord i => exact absurd ⟨i, eq_stateAddr_of_target hi⟩ h.1
  case ctrl => exact absurd ((target_eq_ctrl_iff addr).mp hi) hctrl
  case sched i => exact absurd ⟨i, eq_schedAddr_of_target hi⟩ h.2
  all_goals rfl

/-- The written word reads as written where the address names one, and as before elsewhere (R55). -/
theorem memRead_memWrite_same {addr : Addr} (hctrl : addr ≠ ctrlAddr) (s : State) (v : Word) :
    memRead (memWrite s addr v) addr = if NamesStoredWord addr then v else memRead s addr := by
  split
  case isTrue h =>
    rcases (namesStoredWord_iff addr).mp h with ⟨i, rfl⟩ | ⟨i, rfl⟩ <;> simp
  case isFalse h => rw [memWrite_of_not_stored hctrl h]

/-- Every other address reads as before a write away from CTRL (R55, R61). -/
theorem memRead_memWrite_other {addr other : Addr} (hctrl : addr ≠ ctrlAddr) (hne : other ≠ addr)
    (s : State) (v : Word) : memRead (memWrite s addr v) other = memRead s other := by
  by_cases h : NamesStoredWord addr
  · rcases (namesStoredWord_iff addr).mp h with ⟨i, rfl⟩ | ⟨i, rfl⟩
    · rw [memWrite_stateAddr, memRead_writeS_of_ne s v hne]
    · rw [memWrite_schedAddr, memRead_writeM_of_ne s v hne]
  · rw [memWrite_of_not_stored hctrl h]

/-- Settles O11. -/
theorem writeChangesOnlyTheAddressedWord : Obligations.WriteChangesOnlyTheAddressedWord := by
  unfold Obligations.WriteChangesOnlyTheAddressedWord
  intro s addr v hb hctrl
  obtain ⟨hIDX, hUF, hBUSY, hDONE⟩ :=
    memWrite_control (s := s) v (mt (target_eq_ctrl_iff addr).mp hctrl)
  exact ⟨_, exec_wr_of_idle hb addr v, memRead_memWrite_same hctrl s v,
    fun other hne => memRead_memWrite_other hctrl hne s v, hIDX, hUF, hBUSY, hDONE,
    memWrite_readLog s addr v, memWrite_rstN s addr v, memWrite_resets s addr v⟩

/-! ## Forms that store nothing -/

/-- From `s` to `t` no stored word changed, and reset took no part. -/
structure StoresNothing (s t : State) : Prop where
  S      : t.S = s.S
  M      : t.M = s.M
  rstN   : t.rstN = s.rstN
  resets : t.resets = s.resets

/-- STATUS shows the control fields (R35). -/
theorem memRead_statusAddr_congr {s t : State} (h : t.control = s.control) :
    memRead t statusAddr = memRead s statusAddr := by
  obtain ⟨hIDX, hUF, hBUSY, hDONE⟩ := Control.mk.inj h
  rw [memRead_statusAddr, memRead_statusAddr, hIDX, hUF, hBUSY, hDONE]

/-- A write edge of an idle engine is the effect of the write (R57). -/
theorem writeEdge_of_idle {s : State} (hb : s.BUSY = false) (addr : Addr) (effect : State → State) :
    writeEdge s addr effect = (effect s).nextAction :=
  if_pos (reqReady_of_idle hb true addr)

/-- A command word stores nothing, whether it starts a compress or not (R126, R132). -/
theorem command_storesNothing (s : State) (v : Word) : StoresNothing s (command s v) := by
  cases hv : fieldStart v
  · rw [command_of_no_start hv]; exact ⟨rfl, rfl, rfl, rfl⟩
  · rw [command_of_start hv]; exact ⟨rfl, rfl, rfl, rfl⟩

/-- A form that stores nothing, accepted by an idle engine: neither RD nor NOP writes a control field
(R54, R126, R132). -/
theorem exec_storesNothing {i : Instr} {s : State} (hb : s.BUSY = false)
    (hi : ∀ addr v, i = .wr addr v → addr = ctrlAddr) :
    ∃ t, exec i s = .next t ∧ StoresNothing s t ∧
      ((∃ addr unused, i = .rd addr unused) ∨ (∃ unused, i = .nop unused) →
        t.control = s.control) := by
  cases i
  case rd addr unused =>
    refine ⟨_, exec_rd addr unused s, ?_, fun _ => ?_⟩
    · rw [readEdge_of_ready (reqReady_of_idle hb false addr), engineEdge_of_idle hb]
      exact ⟨rfl, rfl, rfl, rfl⟩
    · rw [readEdge_control, engineEdge_of_idle hb]
  case wr addr v =>
    obtain rfl : addr = ctrlAddr := hi addr v rfl
    obtain ⟨hS, hM, hrstN, hresets⟩ := command_storesNothing s v
    exact ⟨_, exec_wr_ctrlAddr_of_idle hb v, ⟨hS, hM, hrstN, hresets⟩, by simp⟩
  case nop unused =>
    exact ⟨_, congrArg Host.Outcome.next (writeEdge_of_idle hb _ _), ⟨rfl, rfl, rfl, rfl⟩,
      fun _ => rfl⟩
  all_goals
    exact ⟨_, congrArg Host.Outcome.next (writeEdge_of_idle hb _ _), ⟨rfl, rfl, rfl, rfl⟩, by simp⟩

/-- Settles O12. -/
theorem readsAndCommandsStoreNothing : Obligations.ReadsAndCommandsStoreNothing := by
  unfold Obligations.ReadsAndCommandsStoreNothing
  intro i s hb hi
  obtain ⟨t, hexec, ⟨hS, hM, hrstN, hresets⟩, hcontrol⟩ := exec_storesNothing hb hi
  refine ⟨t, hexec, hS, hM, fun addr => memRead_congr_of_ne_status hS hM, fun addr unused h => ?_,
    fun unused h => ?_, hrstN, hresets⟩
  · exact memRead_statusAddr_congr (hcontrol (.inl ⟨addr, unused, h⟩))
  · exact memRead_statusAddr_congr (hcontrol (.inr ⟨unused, h⟩))

end Sys2Proof.Machine
end

section
/-! PROOFS. A word on the port is run as the instruction it decodes to (R51, R80, R81). -/

namespace Sys2Proof

/-! ## A word is its fields side by side (R80) -/

theorem ofBool_getLsbD_eq_extractLsb' {w : Nat} (x : BitVec w) (i : Nat) :
    BitVec.ofBool (x.getLsbD i) = x.extractLsb' i 1 := by
  ext j hj
  obtain rfl : j = 0 := by omega
  simp

/-- A format T word is its three signals, packed (R80). -/
theorem toWord_ofWord (t : BitVec 41) : (Request.ofWord t).toWord = t := by
  simp only [Request.ofWord, Request.toWord, fieldWe, fieldAddr, fieldWdata,
    ofBool_getLsbD_eq_extractLsb']
  rw [BitVec.extractLsb'_append_extractLsb'_eq_extractLsb',
    BitVec.extractLsb'_append_extractLsb'_eq_extractLsb', BitVec.extractLsb'_eq_self,
    BitVec.setWidth_eq] <;> rfl

/-- The signals of a packed transaction are the transaction (R80). -/
theorem ofWord_toWord (r : Request) : Request.ofWord r.toWord = r := by
  simp only [Request.ofWord, fieldWe_toWord, fieldAddr_toWord, fieldWdata_toWord]

/-- A command word is its three fields (R80). -/
theorem commandWord_fields (v : Word) :
    commandWord (fieldReserved v) (fieldUnrollSel v) (fieldStart v) = v := by
  simp only [commandWord, fieldReserved, fieldUnrollSel, fieldStart,
    ofBool_getLsbD_eq_extractLsb']
  rw [BitVec.extractLsb'_append_extractLsb'_eq_extractLsb',
    BitVec.extractLsb'_append_extractLsb'_eq_extractLsb', BitVec.extractLsb'_eq_self,
    BitVec.setWidth_eq] <;> rfl

/-- The command word with START = 0 and these 31 bits above it (R80). -/
def nopWord (unused : BitVec 31) : Word := (unused ++ BitVec.ofBool false).setWidth 32

/-- A command word with START = 0 is the one of its 31 bits above it (R80). -/
theorem nopWord_extract {v : Word} (hv : fieldStart v = false) :
    nopWord (v.extractLsb' 1 31) = v := by
  rw [nopWord, ← hv]
  simp only [fieldStart, ofBool_getLsbD_eq_extractLsb']
  rw [BitVec.extractLsb'_append_extractLsb'_eq_extractLsb', BitVec.extractLsb'_eq_self,
    BitVec.setWidth_eq]
  rfl

theorem fieldStart_nopWord (unused : BitVec 31) : fieldStart (nopWord unused) = false := by
  simp only [fieldStart, nopWord, BitVec.getLsbD_setWidth, BitVec.getLsbD_append]
  simp

/-! ## Encoding what was decoded -/

/-- A command word with START = 1 is that of the compress its UNROLL_SEL names (R82, R83). -/
theorem encode_decodeC_of_start {v : Word} (hv : fieldStart v = true) :
    encode (decodeC v) = .formatC v := by
  have select : ∀ sel : BitVec 2, sel = 0b00 ∨ sel = 0b01 ∨ sel = 0b10 ∨ sel = 0b11 := by decide
  have hfields := commandWord_fields v
  rw [hv] at hfields
  rw [decodeC, if_pos hv]
  rcases select (fieldUnrollSel v) with hsel | hsel | hsel | hsel <;>
    · rw [hsel] at hfields ⊢
      exact congrArg EncodedWord.formatC hfields

/-- Every command word is that of the command it decodes to (R82). -/
theorem encode_decodeC (v : Word) : encode (decodeC v) = .formatC v := by
  cases hv : fieldStart v
  · rw [decodeC, hv, if_neg Bool.false_ne_true]
    exact congrArg EncodedWord.formatC (nopWord_extract hv)
  · exact encode_decodeC_of_start hv

/-- Every transaction word is that of the transaction it decodes to (R81). -/
theorem encode_decodeT (t : BitVec 41) : encode (decodeT t) = .formatT t := by
  have hword := toWord_ofWord t
  rw [Request.ofWord] at hword
  cases hwe : fieldWe t <;>
    · rw [hwe] at hword
      rw [decodeT, hwe]
      exact congrArg EncodedWord.formatT hword

theorem encode_decodeWord : ∀ w : EncodedWord, encode (decodeWord w) = w
  | .formatT t => encode_decodeT t
  | .formatC v => encode_decodeC v

end Sys2Proof

namespace Sys2Proof.Machine

/-! ## The transaction of an instruction on the port -/

/-- The transaction of a compress command is a write to CTRL that starts the engine (R82). -/
theorem exec_decodeRequest_commandWord (reserved : BitVec 29) (sel : BitVec 2) (s : State) :
    exec (decodeRequest (EncodedWord.formatC (commandWord reserved sel true)).toRequest) s =
      .next (writeEdge s ctrlAddr fun t => startCompress t sel) := by
  rw [exec_decodeRequest]
  simp [EncodedWord.toRequest, command, fieldStart_commandWord, fieldUnrollSel_commandWord]

/-- On the port, the transaction of an instruction is that instruction (R51, R81). -/
theorem exec_decodeRequest_encode (i : Instr) (s : State) :
    exec (decodeRequest (encode i).toRequest) s = exec i s := by
  cases i
  case rd addr unused =>
    rw [exec_decodeRequest, encode, EncodedWord.toRequest, ofWord_toWord]; rfl
  case wr addr data =>
    rw [exec_decodeRequest, encode, EncodedWord.toRequest, ofWord_toWord]; rfl
  case nop unused =>
    rw [exec_decodeRequest, encode, ← nopWord]
    simp [EncodedWord.toRequest, command_of_no_start (fieldStart_nopWord unused), exec, execNop]
  all_goals exact exec_decodeRequest_commandWord _ _ s

/-- A step outside reset runs the instruction on the port (R51). -/
theorem step_of_encode {i : Instr} {s : State} {rest : List HostAction} (hr : s.rstLevel = true)
    (hp : s.program = .present (encode i).toRequest :: rest) : step s = exec i s.nextLevel := by
  have hport : portEdge s.nextLevel = exec (decodeRequest (encode i).toRequest) s.nextLevel := by
    simp [portEdge, hp]
  rw [step, clockEdge, if_pos hr, hport, exec_decodeRequest_encode]

/-- A number that decodes is a word of a format, the word of the instruction it decodes to. -/
theorem wordOfBits_of_decodeTableWord {nbits w : Nat} {i : Instr}
    (h : decodeTableWord nbits w = some i) : wordOfBits nbits w = .ok (encode i) := by
  cases hword : wordOfBits nbits w with
  | error e => simp [decodeTableWord, decodeBits, hword] at h
  | ok word =>
    obtain rfl : decodeWord word = i := by simpa [decodeTableWord, decodeBits, hword] using h
    rw [encode_decodeWord]

/-- Settles O6. -/
theorem stepRunsTheInstructionOnThePort : Obligations.StepRunsTheInstructionOnThePort := by
  unfold Obligations.StepRunsTheInstructionOnThePort
  refine ⟨fun i s rest hr hp => step_of_encode hr hp, fun nbits w i s h => ?_⟩
  rw [State.withFetchWord, placeWord, wordOfBits_of_decodeTableWord h]
  exact step_of_encode rfl rfl

end Sys2Proof.Machine
end

section
/-! PROOFS. The decoder and the encoder are inverse, and agree with the opcode map (R80 to R84). -/

namespace Sys2Proof

/-! ## Decoding what was encoded -/

/-- The transaction that a packed word decodes to (R81). -/
theorem decodeT_toWord (r : Request) :
    decodeT r.toWord = if r.we then .wr r.addr r.wdata else .rd r.addr r.wdata := by
  rw [decodeT, fieldWe_toWord, fieldAddr_toWord, fieldWdata_toWord]

/-- The compress command of a command word with START = 1 is the one its UNROLL_SEL names (R82). -/
theorem decodeC_commandWord (reserved : BitVec 29) (sel : BitVec 2) :
    decodeC (commandWord reserved sel true) =
      if sel = 0b00 then .compress1x reserved
      else if sel = 0b01 then .compress2x reserved
      else if sel = 0b10 then .compress4x reserved
      else .compress8x reserved := by
  rw [decodeC, fieldStart_commandWord, fieldUnrollSel_commandWord, fieldReserved_commandWord,
    if_pos rfl]

/-- The 31 bits above START are kept (R80). -/
theorem extractLsb'_nopWord (unused : BitVec 31) : (nopWord unused).extractLsb' 1 31 = unused := by
  ext i hi
  simp only [nopWord, BitVec.getElem_extractLsb', BitVec.getLsbD_setWidth, BitVec.getLsbD_append]
  simp [hi, show 1 + i < 32 by omega]

theorem decodeC_nopWord (unused : BitVec 31) : decodeC (nopWord unused) = .nop unused := by
  rw [decodeC, fieldStart_nopWord, extractLsb'_nopWord, if_neg Bool.false_ne_true]

theorem decodeWord_encode (i : Instr) : decodeWord (encode i) = i := by
  cases i
  case rd addr unused => exact decodeT_toWord ⟨false, addr, unused⟩
  case wr addr data => exact decodeT_toWord ⟨true, addr, data⟩
  case nop unused => exact decodeC_nopWord unused
  all_goals exact decodeC_commandWord _ _

/-- Settles O1. -/
theorem decodeAndEncodeAgree : Obligations.DecodeAndEncodeAgree := by
  unfold Obligations.DecodeAndEncodeAgree
  exact ⟨decodeWord_encode, encode_decodeWord⟩

/-! ## The opcode rows (R84) -/

/-- An instruction's word selects the instruction's own row and no other. -/
theorem opcodeRowStatement (i : Instr) : Laws.OpcodeRow.Statement i := by
  cases i
  case rd addr unused => exact Laws.OpcodeRow.rd addr unused
  case wr addr data => exact Laws.OpcodeRow.wr addr data
  case compress1x reserved => exact Laws.OpcodeRow.compress1x reserved
  case compress2x reserved => exact Laws.OpcodeRow.compress2x reserved
  case compress4x reserved => exact Laws.OpcodeRow.compress4x reserved
  case compress8x reserved => exact Laws.OpcodeRow.compress8x reserved
  case nop unused => exact Laws.OpcodeRow.nop unused

/-- So does every word, as the word of the instruction it decodes to. -/
theorem rowsOf_eq_mnemonic (w : EncodedWord) :
    Laws.OpcodeRow.rowsOf w = [(decodeWord w).mnemonic] := by
  have hrow := opcodeRowStatement (decodeWord w)
  rwa [Laws.OpcodeRow.Statement, encode_decodeWord] at hrow

/-- Settles O4. -/
theorem opcodeRowsAreDisjointAndCovering : Obligations.OpcodeRowsAreDisjointAndCovering := by
  unfold Obligations.OpcodeRowsAreDisjointAndCovering
  exact ⟨fun t => rowsOf_eq_mnemonic (.formatT t), fun v => rowsOf_eq_mnemonic (.formatC v),
    by decide⟩

end Sys2Proof
end

section
/-! PROOFS. What a number decodes to, and what a decoded word does on the port (R81, R82). -/

namespace Sys2Proof

/-! ## Numbers as words -/

/-- A format T word comes as a number of 41 bits, or of 48 (R80; log entry 10). -/
theorem wordOfBits_formatT {nbits : Nat} (h : nbits = 41 ∨ nbits = 48) (w : Nat) :
    wordOfBits nbits w =
      if w < 2 ^ 41 then .ok (.formatT (BitVec.ofNat 41 w)) else .error .bitsBeyondTheFormat := by
  have h32 : nbits ≠ 32 := by omega
  rw [wordOfBits, if_neg h32, if_pos h]

theorem decodeBits_formatT {nbits w : Nat} (h : nbits = 41 ∨ nbits = 48) (hw : w < 2 ^ 41) :
    decodeBits nbits w = .ok (decodeT (BitVec.ofNat 41 w)) := by
  rw [decodeBits, wordOfBits_formatT h, if_pos hw]
  rfl

theorem decodeBits_formatT_beyond {nbits w : Nat} (h : nbits = 41 ∨ nbits = 48)
    (hw : 2 ^ 41 ≤ w) : decodeBits nbits w = .error .bitsBeyondTheFormat := by
  rw [decodeBits, wordOfBits_formatT h, if_neg hw.not_gt]

theorem decodeBits_other_width {nbits : Nat} (h32 : nbits ≠ 32) (h : ¬ (nbits = 41 ∨ nbits = 48))
    (w : Nat) : decodeBits nbits w = .error .noFormatOfThisWidth := by
  rw [decodeBits, wordOfBits, if_neg h32, if_neg h]

/-- Settles O48. -/
theorem wholeByteTransactionWordsDecodeAlike :
    Obligations.WholeByteTransactionWordsDecodeAlike := by
  unfold Obligations.WholeByteTransactionWordsDecodeAlike
  refine ⟨fun w => ?_, fun w => decodeBits_formatT_beyond (.inl rfl), fun nbits w h32 h41 h48 => ?_⟩
  · rw [decodeBits, decodeBits, wordOfBits_formatT (.inl rfl), wordOfBits_formatT (.inr rfl)]
  · exact decodeBits_other_width h32 (not_or.mpr ⟨h41, h48⟩) w

/-- Settles O5: each word has its format's width, and its fields are those of the instruction. -/
theorem sampleWordsDecode : Obligations.SampleWordsDecode := by
  unfold Obligations.SampleWordsDecode
  decide

/-! ## The fields of a word as numbers (R80) -/

/-- A bit range of a word, as a number: the word over the range's place value. -/
theorem extractLsb'_eq_ofNat_div {w : Nat} (x : BitVec w) (start len : Nat) :
    x.extractLsb' start len = BitVec.ofNat len (x.toNat / 2 ^ start) := by
  rw [BitVec.extractLsb', Nat.shiftRight_eq_div_pow]

/-- The transaction of a 41-bit number, its fields read off as numbers (R81). -/
theorem decodeT_ofNat {w : Nat} (hw : w < 2 ^ 41) :
    decodeT (BitVec.ofNat 41 w) =
      if w / 2 ^ 40 = 1 then .wr (BitVec.ofNat 8 (w / 2 ^ 32)) (BitVec.ofNat 32 w)
      else .rd (BitVec.ofNat 8 (w / 2 ^ 32)) (BitVec.ofNat 32 w) := by
  have hbit : w / 2 ^ 40 % 2 = w / 2 ^ 40 := by omega
  rw [decodeT, fieldWe, fieldAddr, fieldWdata, extractLsb'_eq_ofNat_div, extractLsb'_eq_ofNat_div,
    BitVec.getLsbD, Nat.testBit_eq_decide_div_mod_eq, BitVec.toNat_ofNat, Nat.mod_eq_of_lt hw, hbit,
    pow_zero, Nat.div_one]
  simp only [decide_eq_true_eq]

/-- The low three bits of a command word: UNROLL_SEL above START. -/
theorem toNat_mod_eight_eq (v : Word) :
    v.toNat % 8 = 2 * (fieldUnrollSel v).toNat + (fieldStart v).toNat := by
  rw [fieldUnrollSel, fieldStart, extractLsb'_eq_ofNat_div, BitVec.toNat_ofNat, BitVec.getLsbD,
    Nat.toNat_testBit]
  omega

theorem fieldReserved_eq (v : Word) : fieldReserved v = BitVec.ofNat 29 (v.toNat / 8) :=
  extractLsb'_eq_ofNat_div v 3 29

/-- The command that the low three bits of a command word choose (R82): for either START and each
UNROLL_SEL these bits are one number, and the two choices come out alike. -/
theorem decodeC_eq_low (v : Word) :
    decodeC v =
      if v.toNat % 8 = 1 then .compress1x (BitVec.ofNat 29 (v.toNat / 8))
      else if v.toNat % 8 = 3 then .compress2x (BitVec.ofNat 29 (v.toNat / 8))
      else if v.toNat % 8 = 5 then .compress4x (BitVec.ofNat 29 (v.toNat / 8))
      else if v.toNat % 8 = 7 then .compress8x (BitVec.ofNat 29 (v.toNat / 8))
      else .nop (BitVec.ofNat 31 (v.toNat / 2)) := by
  have select : ∀ sel : BitVec 2, sel = 0b00 ∨ sel = 0b01 ∨ sel = 0b10 ∨ sel = 0b11 := by decide
  have hlow := toNat_mod_eight_eq v
  rw [decodeC, fieldReserved_eq, extractLsb'_eq_ofNat_div, pow_one]
  cases hstart : fieldStart v <;>
    rcases select (fieldUnrollSel v) with hsel | hsel | hsel | hsel <;>
      · rw [hsel, hstart] at hlow
        rw [hsel, hlow]
        rfl

end Sys2Proof

namespace Sys2Proof.Machine

/-! ## What a transaction and a command word do on the port -/

/-- A command word does what the write to CTRL that carries it does (R80, R81). -/
theorem exec_decodeC (v : Word) (s : State) : exec (decodeC v) s = exec (.wr ctrlAddr v) s := by
  have hport : decodeRequest ⟨true, ctrlAddr, v⟩ = decodeC v := by
    rw [decodeRequest, decodeT_toWord]; rfl
  rw [← hport, exec_decodeRequest]
  rfl

/-- A write on the port of an idle engine leaves what MemWrite leaves, and the host goes on (R55). -/
theorem exec_wr_eq_memWrite_of_idle {s : State} (hb : s.BUSY = false) (addr : Addr) (v : Word) :
    exec (.wr addr v) s = .next { memWrite s addr v with program := s.program.tail } := by
  rw [exec_wr_of_idle hb, State.nextAction, memWrite_program]

/-- A read on the port of an idle engine returns its word and changes nothing else (R54). -/
theorem exec_rd_of_idle {s : State} (hb : s.BUSY = false) (addr : Addr) (unused : Word) :
    exec (.rd addr unused) s =
      .next { s with readLog := s.readLog ++ [memRead s addr], program := s.program.tail } := by
  rw [exec_rd, readEdge_of_ready (reqReady_of_idle hb false addr), engineEdge_of_idle hb]
  rfl

/-- Settles O2. -/
theorem everyTransactionWordDecodes : Obligations.EveryTransactionWordDecodes := by
  unfold Obligations.EveryTransactionWordDecodes
  refine ⟨fun w hw => ?_, fun addr v s hb => ?_, fun v s => (exec_decodeC v s).symm⟩
  · rw [decodeBits_formatT (.inl rfl) hw, decodeT_ofNat hw]
  · exact ⟨exec_rd_of_idle hb addr v, exec_wr_eq_memWrite_of_idle hb addr v⟩

/-- Settles O3: a command word does what its write to CTRL does. -/
theorem commandWordDecodesByItsLowThreeBits : Obligations.CommandWordDecodesByItsLowThreeBits := by
  unfold Obligations.CommandWordDecodesByItsLowThreeBits
  refine ⟨fun v s => ?_, decodeC_eq_low⟩
  rw [exec_decodeC]
  refine ⟨fun hb => ?_, fun hb => exec_of_busy hb (by simp)⟩
  rw [exec_wr_eq_memWrite_of_idle hb, memWrite_ctrlAddr]

end Sys2Proof.Machine
end

section
/-! PROOFS. CH and MAJ bit by bit (R101, R102): each of their forms and corner cases is compared
with the bitwise reading, at one bit position. -/

namespace Sys2Proof.Machine

/-- Every bit of the word of all ones is 1. -/
theorem getLsbD_allOnesWord {i : Nat} (hi : i < 32) : (0xFFFFFFFF : Word).getLsbD i = true := by
  rw [show (0xFFFFFFFF : Word) = BitVec.allOnes 32 from rfl, BitVec.getLsbD_allOnes,
    decide_eq_true hi]

theorem getLsbD_zeroWord (i : Nat) : (0 : Word).getLsbD i = false := BitVec.getLsbD_zero

/-- Below bit 32 the complement of a word has the complement of each bit. -/
theorem getLsbD_not_word (x : Word) {i : Nat} (hi : i < 32) : (~~~x).getLsbD i = !x.getLsbD i := by
  rw [BitVec.getLsbD_not, decide_eq_true hi, Bool.true_and]

/-! ## CH, the bitwise choice -/

theorem getLsbD_ch (x y z : Word) {i : Nat} (hi : i < 32) :
    (ch x y z).getLsbD i = if x.getLsbD i then y.getLsbD i else z.getLsbD i := by
  rw [ch, BitVec.getLsbD_xor, BitVec.getLsbD_and, BitVec.getLsbD_and, getLsbD_not_word x hi]
  cases x.getLsbD i <;> simp

/-- CH is the only word that chooses each bit so. -/
theorem ch_eq_of_bits {x y z r : Word}
    (h : ∀ i < 32, (if x.getLsbD i then y.getLsbD i else z.getLsbD i) = r.getLsbD i) :
    ch x y z = r :=
  BitVec.eq_of_getLsbD_eq fun i hi => (getLsbD_ch x y z hi).trans (h i hi)

theorem ch_eq_or (x y z : Word) : ch x y z = (x &&& y) ||| (~~~x &&& z) :=
  ch_eq_of_bits fun i hi => by
    rw [BitVec.getLsbD_or, BitVec.getLsbD_and, BitVec.getLsbD_and, getLsbD_not_word x hi]
    cases x.getLsbD i <;> simp

theorem ch_eq_xor (x y z : Word) : ch x y z = z ^^^ (x &&& (y ^^^ z)) :=
  ch_eq_of_bits fun i _ => by
    rw [BitVec.getLsbD_xor, BitVec.getLsbD_and, BitVec.getLsbD_xor]
    cases x.getLsbD i <;> cases z.getLsbD i <;> simp

theorem ch_zeros (y z : Word) : ch 0x00000000 y z = z := ch_eq_of_bits fun i _ => by
  rw [getLsbD_zeroWord, if_neg Bool.false_ne_true]

theorem ch_ones (y z : Word) : ch 0xFFFFFFFF y z = y := ch_eq_of_bits fun i hi => by
  rw [getLsbD_allOnesWord hi, if_pos rfl]

theorem ch_self (x y : Word) : ch x y y = y := ch_eq_of_bits fun _ _ => ite_self _

theorem ch_ones_zeros (x : Word) : ch x 0xFFFFFFFF 0 = x := ch_eq_of_bits fun i hi => by
  rw [getLsbD_allOnesWord hi, getLsbD_zeroWord]
  cases x.getLsbD i <;> simp

theorem ch_zeros_ones (x : Word) : ch x 0 0xFFFFFFFF = ~~~x := ch_eq_of_bits fun i hi => by
  rw [getLsbD_allOnesWord hi, getLsbD_zeroWord, getLsbD_not_word x hi]
  cases x.getLsbD i <;> simp

/-- Settles O27. -/
theorem chIsBitwiseChoice : Obligations.ChIsBitwiseChoice := by
  unfold Obligations.ChIsBitwiseChoice
  refine ⟨fun x y z => ?_, by decide⟩
  exact ⟨rfl, fun _ => getLsbD_ch x y z, ch_eq_or x y z, ch_eq_xor x y z, ch_zeros y z,
    ch_ones y z, ch_self x y, ch_ones_zeros x, ch_zeros_ones x⟩

/-! ## MAJ, the bitwise majority -/

theorem getLsbD_maj (x y z : Word) (i : Nat) :
    (maj x y z).getLsbD i = Bool.atLeastTwo (x.getLsbD i) (y.getLsbD i) (z.getLsbD i) := by
  rw [maj, BitVec.getLsbD_xor, BitVec.getLsbD_xor, BitVec.getLsbD_and, BitVec.getLsbD_and,
    BitVec.getLsbD_and]
  cases x.getLsbD i <;> cases y.getLsbD i <;> simp

/-- MAJ is the only word of these majorities. -/
theorem maj_eq_of_bits {x y z r : Word}
    (h : ∀ i < 32, Bool.atLeastTwo (x.getLsbD i) (y.getLsbD i) (z.getLsbD i) = r.getLsbD i) :
    maj x y z = r :=
  BitVec.eq_of_getLsbD_eq fun i hi => (getLsbD_maj x y z i).trans (h i hi)

theorem atLeastTwo_iff_two_le (a b c : Bool) :
    Bool.atLeastTwo a b c = true ↔ 2 ≤ a.toNat + b.toNat + c.toNat := by
  revert a b c; decide

theorem atLeastTwo_swap_left (a b c : Bool) : Bool.atLeastTwo a b c = Bool.atLeastTwo b a c := by
  revert a b c; decide

theorem atLeastTwo_swap_right (a b c : Bool) : Bool.atLeastTwo a b c = Bool.atLeastTwo a c b := by
  revert a b c; decide

theorem atLeastTwo_self (a b : Bool) : Bool.atLeastTwo a a b = a := by revert a b; decide

theorem atLeastTwo_not (a b : Bool) : Bool.atLeastTwo a b (!b) = a := by revert a b; decide

theorem maj_eq_or (x y z : Word) : maj x y z = (x &&& y) ||| (x &&& z) ||| (y &&& z) :=
  maj_eq_of_bits fun i _ => by simp only [BitVec.getLsbD_or, BitVec.getLsbD_and, Bool.atLeastTwo]

theorem maj_swap_left (x y z : Word) : maj x y z = maj y x z := maj_eq_of_bits fun i _ => by
  rw [getLsbD_maj, atLeastTwo_swap_left]

theorem maj_swap_right (x y z : Word) : maj x y z = maj x z y := maj_eq_of_bits fun i _ => by
  rw [getLsbD_maj, atLeastTwo_swap_right]

theorem maj_self (x z : Word) : maj x x z = x := maj_eq_of_bits fun _ _ => atLeastTwo_self _ _

theorem maj_zeros (y z : Word) : maj 0 y z = y &&& z := maj_eq_of_bits fun i _ => by
  rw [getLsbD_zeroWord, Bool.atLeastTwo_false_left, BitVec.getLsbD_and]

theorem maj_ones (y z : Word) : maj 0xFFFFFFFF y z = y ||| z := maj_eq_of_bits fun i hi => by
  rw [getLsbD_allOnesWord hi, Bool.atLeastTwo_true_left, BitVec.getLsbD_or]

theorem maj_not (x y : Word) : maj x y (~~~y) = x := maj_eq_of_bits fun i hi => by
  rw [getLsbD_not_word y hi, atLeastTwo_not]

/-- Settles O28. -/
theorem majIsBitwiseMajority : Obligations.MajIsBitwiseMajority := by
  unfold Obligations.MajIsBitwiseMajority
  refine ⟨fun x y z => ⟨rfl, fun i _ => ?_, maj_eq_or x y z, maj_swap_left x y z,
    maj_swap_right x y z, maj_self x z, maj_zeros y z, maj_ones y z, maj_not x y⟩, by decide⟩
  rw [getLsbD_maj, atLeastTwo_iff_two_le]

end Sys2Proof.Machine
end

section
/-! PROOFS. EP0 and EP1: the XOR of three rotations of a word (R103, R104). -/

namespace Sys2Proof.Machine

/-- Rotation distributes over XOR: both sides have the XOR of the same two bits. -/
theorem rotr_xor (x y : Word) {n : Nat} (hn : n < 32) :
    rotr (x ^^^ y) n = rotr x n ^^^ rotr y n :=
  BitVec.eq_of_getLsbD_eq fun i hi => by
    rw [getLsbD_rotr _ hn hi, BitVec.getLsbD_xor, BitVec.getLsbD_xor, getLsbD_rotr x hn hi,
      getLsbD_rotr y hn hi]

/-- The shape that EP0 and EP1 share: the XOR of the rotations by three amounts. -/
def rotrMix (n₁ n₂ n₃ : Nat) (x : Word) : Word := rotr x n₁ ^^^ rotr x n₂ ^^^ rotr x n₃

theorem ep0_eq_rotrMix : ep0 = rotrMix 2 13 22 := rfl

theorem ep1_eq_rotrMix : ep1 = rotrMix 6 11 25 := rfl

section
variable {n₁ n₂ n₃ : Nat} (h₁ : n₁ < 32) (h₂ : n₂ < 32) (h₃ : n₃ < 32)
include h₁ h₂ h₃

theorem getLsbD_rotrMix (x : Word) {i : Nat} (hi : i < 32) :
    (rotrMix n₁ n₂ n₃ x).getLsbD i =
      (x.getLsbD ((i + n₁) % 32) ^^ x.getLsbD ((i + n₂) % 32) ^^ x.getLsbD ((i + n₃) % 32)) := by
  rw [rotrMix, BitVec.getLsbD_xor, BitVec.getLsbD_xor, getLsbD_rotr x h₁ hi, getLsbD_rotr x h₂ hi,
    getLsbD_rotr x h₃ hi]

theorem rotrMix_xor (x y : Word) :
    rotrMix n₁ n₂ n₃ (x ^^^ y) = rotrMix n₁ n₂ n₃ x ^^^ rotrMix n₁ n₂ n₃ y := by
  rw [rotrMix, rotr_xor x y h₁, rotr_xor x y h₂, rotr_xor x y h₃, rotrMix, rotrMix]
  ac_rfl

end

/-- Settles O29. -/
theorem ep0MixesThreeRotations : Obligations.Ep0MixesThreeRotations := by
  unfold Obligations.Ep0MixesThreeRotations
  refine ⟨fun x y => ⟨rfl, fun i hi => ?_, ?_⟩, by decide⟩
  · rw [ep0_eq_rotrMix]
    exact getLsbD_rotrMix (by decide) (by decide) (by decide) x hi
  · rw [ep0_eq_rotrMix]
    exact rotrMix_xor (by decide) (by decide) (by decide) x y

/-- Settles O30. -/
theorem ep1MixesThreeRotations : Obligations.Ep1MixesThreeRotations := by
  unfold Obligations.Ep1MixesThreeRotations
  refine ⟨fun x y => ⟨rfl, fun i hi => ?_, ?_⟩, by decide⟩
  · rw [ep1_eq_rotrMix]
    exact getLsbD_rotrMix (by decide) (by decide) (by decide) x hi
  · rw [ep1_eq_rotrMix]
    exact rotrMix_xor (by decide) (by decide) (by decide) x y

end Sys2Proof.Machine
end

section
/-! PROOFS. A round, and so a compress, can be undone (R109, R120). -/

namespace Sys2Proof.Machine

/-! ## The inverse of a round -/

/-- t1 of a round as its result shows it: new a less t2, whose operands are new b, c, d (R109). -/
def recoveredT1 (r : HashState) : Word := r.a - (ep0 r.b + maj r.b r.c r.d)

/-- The operand of a round as its result shows it (R109). -/
def roundInverse (kw mw : Word) (r : HashState) : HashState where
  a := r.b
  b := r.c
  c := r.d
  d := r.e - recoveredT1 r
  e := r.f
  f := r.g
  g := r.h
  h := recoveredT1 r - ep1 r.f - ch r.f r.g r.h - kw - mw

theorem recoveredT1_roundFused (s : HashState) (kw mw : Word) :
    recoveredT1 (roundFused s kw mw) = roundT1 s kw mw :=
  add_sub_cancel_right (roundT1 s kw mw) (roundT2 s)

theorem roundInverse_roundFused (s : HashState) (kw mw : Word) :
    roundInverse kw mw (roundFused s kw mw) = s := by
  rw [roundInverse, recoveredT1_roundFused]
  ext1
  case d => exact add_sub_cancel_right s.d (roundT1 s kw mw)
  case h =>
    change roundT1 s kw mw - ep1 s.e - ch s.e s.f s.g - kw - mw = s.h
    rw [roundT1]
    abel
  all_goals rfl

/-- The round of the recovered operand computes the recovered t1 again. -/
theorem roundT1_roundInverse (r : HashState) (kw mw : Word) :
    roundT1 (roundInverse kw mw r) kw mw = recoveredT1 r := by
  simp only [roundT1, roundInverse]
  abel

theorem roundFused_roundInverse (r : HashState) (kw mw : Word) :
    roundFused (roundInverse kw mw r) kw mw = r := by
  rw [roundFused, roundT1_roundInverse]
  ext1
  case a => exact sub_add_cancel r.a (ep0 r.b + maj r.b r.c r.d)
  case e => exact sub_add_cancel r.e (recoveredT1 r)
  all_goals rfl

theorem roundFused_bijective (kw mw : Word) :
    Function.Bijective fun s : HashState => roundFused s kw mw :=
  Function.bijective_iff_has_inverse.mpr ⟨roundInverse kw mw,
    fun s => roundInverse_roundFused s kw mw, fun r => roundFused_roundInverse r kw mw⟩

/-- Settles O33: the rule's equations are the fields of the inverse. -/
theorem roundIsABijection : Obligations.RoundIsABijection := by
  unfold Obligations.RoundIsABijection
  intro kw mw
  refine ⟨roundFused_bijective kw mw, ?_⟩
  rintro s r rfl t1 t2 rfl rfl
  have undone := (roundInverse_roundFused s kw mw).symm
  exact ⟨rfl, rfl, rfl, rfl, rfl, rfl, congrArg HashState.d undone, congrArg HashState.h undone⟩

/-! ## Rounds in a row -/

theorem roundsFrom_bijective (m : Schedule) (i n : Nat) :
    Function.Bijective (roundsFrom m i n) := by
  induction n with
  | zero => exact Function.bijective_id
  | succ n ih => exact (roundFused_bijective (kWord (i + n)) (mWord m (i + n))).comp ih

/-- Settles O36: a compress is 64 rounds, each of them a bijection. -/
theorem compressIsABijectionForEachSchedule : Obligations.CompressIsABijectionForEachSchedule := by
  unfold Obligations.CompressIsABijectionForEachSchedule
  exact fun m => roundsFrom_bijective m 0 64

end Sys2Proof.Machine
end

section
/-! PROOFS. A round in integers, and its accumulated form (R106, R107, R111). -/

namespace Sys2Proof.Machine

theorem roundT1_toNat (s : HashState) (kw mw : Word) :
    (roundT1 s kw mw).toNat =
      (s.h.toNat + (ep1 s.e).toNat + (ch s.e s.f s.g).toNat + kw.toNat + mw.toNat) % 2 ^ 32 := by
  simp only [roundT1, BitVec.toNat_add, Nat.mod_add_mod]

theorem roundT2_toNat (s : HashState) :
    (roundT2 s).toNat = ((ep0 s.a).toNat + (maj s.a s.b s.c).toNat) % 2 ^ 32 :=
  BitVec.toNat_add _ _

theorem roundFused_a (s : HashState) (kw mw : Word) :
    (roundFused s kw mw).a = roundT1 s kw mw + roundT2 s := rfl

theorem roundFused_e (s : HashState) (kw mw : Word) :
    (roundFused s kw mw).e = s.d + roundT1 s kw mw := rfl

/-- Settles O31: the reductions inside the sums of t1 and t2 are absorbed by the last one. -/
theorem roundMatchesBigIntegerSimulation : Obligations.RoundMatchesBigIntegerSimulation := by
  unfold Obligations.RoundMatchesBigIntegerSimulation
  intro s kw mw
  refine ⟨?_, ?_, rfl, rfl, rfl, rfl, rfl, rfl⟩
  · rw [roundFused_a, BitVec.toNat_add, roundT1_toNat, roundT2_toNat, ← Nat.add_mod]
    simp only [Nat.add_assoc]
  · rw [roundFused_e, BitVec.toNat_add, roundT1_toNat, Nat.add_mod_mod]
    simp only [Nat.add_assoc]

/-- Accumulating t1 term by term, from the left, is the fused sum (R107). -/
theorem roundSeq_eq_roundFused (s : HashState) (kw mw : Word) :
    roundSeq s kw mw = roundFused s kw mw := rfl

/-- Settles O32. -/
theorem accumulatedRoundEqualsFusedRound : Obligations.AccumulatedRoundEqualsFusedRound := by
  unfold Obligations.AccumulatedRoundEqualsFusedRound
  intro s kw mw
  refine ⟨?_, roundSeq_eq_roundFused s kw mw⟩
  rintro t1 t2 rfl rfl
  rfl

end Sys2Proof.Machine
end

section
/-! PROOFS. The compress operations: a sequence of rounds, the engine's step, and the commands (R120 to
R128, R132). -/

namespace Sys2Proof.Machine

/-! ## Rounds as the rules write them -/

/-- Round i, on the words of K and M of its own index (R106, R120). -/
theorem roundAt_eq_roundFused (m : Schedule) {i : Nat} (h : i < 64) (s : HashState) :
    roundAt m i s = roundFused s (kTable.get ⟨i, h⟩) (m.get ⟨i, h⟩) := by
  rw [roundAt, kWord_of_lt h, mWord_of_lt m h]
  rfl

/-- A sequence whose every next state is one round on is what the rounds leave, state by state. -/
theorem roundsFrom_eq_of_rounds {m : Schedule} {i n : Nat} {f : Nat → HashState}
    (h : ∀ j, j < n → f (j + 1) = roundAt m (i + j) (f j)) : roundsFrom m i n (f 0) = f n := by
  induction n with
  | zero => rfl
  | succ n ih =>
    have hbefore := ih fun j hj => h j (hj.trans (Nat.lt_succ_self n))
    rw [roundsFrom_succ, hbefore, h n (Nat.lt_succ_self n)]

/-- Settles O35: the rule's sequence is one of rounds, from round 0 on. -/
theorem compressIsSixtyFourRounds : Obligations.CompressIsSixtyFourRounds := by
  unfold Obligations.CompressIsSixtyFourRounds
  rintro s m f rfl hf
  have hround : ∀ j, j < 64 → f (j + 1) = roundAt m (0 + j) (f j) := fun j hj => by
    rw [Nat.zero_add, roundAt_eq_roundFused m hj, hf j hj]
  have hprefix : ∀ n, n ≤ 64 → roundsFrom m 0 n (f 0) = f n :=
    fun n hn => roundsFrom_eq_of_rounds fun j hj => hround j (hj.trans_le hn)
  exact ⟨hprefix, hprefix 64 le_rfl⟩

/-! ## The engine's step -/

/-- A round in the form that R121 asks of the select: the accumulated form of UF = 3 is the fused one
(R107). -/
theorem roundAt_eq_roundOfSelect (sel : BitVec 2) (m : Schedule) {i : Nat} (h : i < 64)
    (s : HashState) :
    roundAt m i s =
      if sel = 3 then roundSeq s (kTable.get ⟨i, h⟩) (m.get ⟨i, h⟩)
      else roundFused s (kTable.get ⟨i, h⟩) (m.get ⟨i, h⟩) := by
  rw [roundSeq_eq_roundFused, ite_self, roundAt_eq_roundFused m h]

/-- An engine step leaves the last state of a sequence of U rounds from IDX on (R121). -/
theorem engineStep_S_eq_of_rounds {s : State} {f : Nat → HashState} (h0 : f 0 = s.S)
    (hf : ∀ j, j < unrollFactor s.UF → f (j + 1) = roundAt s.M (s.IDX.toNat + j) (f j)) :
    (engineStep s).S = f (unrollFactor s.UF) := by
  rw [engineStep_S, loopBody_eq_roundsFrom, ← h0]
  exact roundsFrom_eq_of_rounds hf

/-- Settles O23: the invariant keeps the U rounds of the edge within the tables, and the index from
wrapping. -/
theorem engineStepPerformsURounds : Obligations.EngineStepPerformsURounds := by
  unfold Obligations.EngineStepPerformsURounds
  refine ⟨fun s hb => engineEdge_of_idle hb, fun s f hs hb hr h0 hf => ?_⟩
  have hroom := hs.idx_add_unrollFactor_le hb
  obtain ⟨actions, log, hstep⟩ := step_of_busy hr hb
  obtain ⟨hUF, -, hlast, hmore⟩ := control_of_engineStep hb rfl
  rw [← unrollFactor_eq_two_pow] at hf ⊢
  have hround : ∀ j, j < unrollFactor s.UF →
      f (j + 1) = roundAt s.M (s.IDX.toNat + j) (f j) := fun j hj => by
    have hj64 : s.IDX.toNat + j < 64 := by omega
    rw [hf j hj64 hj, roundAt_eq_roundOfSelect s.UF s.M hj64]
  exact ⟨_, hstep, engineStep_S_eq_of_rounds h0 hround, engineStep_M s, hUF,
    engineStep_IDX_toNat hroom, hlast, hmore⟩

/-- Settles O46: outside reset the edge is the engine's step, and only the last step clears BUSY. -/
theorem onlyResetEndsACompressEarly : Obligations.OnlyResetEndsACompressEarly := by
  unfold Obligations.OnlyResetEndsACompressEarly
  intro s hb
  obtain ⟨t, hstep, hcontrol, -, -⟩ := exists_step_controlEdge s
  refine ⟨t, hstep, fun hidle => ?_⟩
  cases hr : s.rstLevel
  · exact .inl rfl
  · right
    rw [State.nextControl_of_level hr, State.portControl_of_busy hb] at hcontrol
    obtain ⟨-, -, hlast, hmore⟩ := control_of_engineStep hb hcontrol
    by_cases h64 : t.IDX = 64
    · exact ⟨h64, (hlast h64).2⟩
    · have hbusy : t.BUSY = true := (hmore h64).1
      rw [hidle] at hbusy
      contradiction

/-! ## The whole compress -/

/-- Before its last step the engine is still busy (R127). -/
theorem StepsInto.running {regs : HashState} {m : Schedule} {sel : BitVec 2} {k : Nat} {t : State}
    (h : StepsInto regs m sel k t) (hk : k * unrollFactor sel < 64) :
    t.S = roundsFrom m 0 (k * unrollFactor sel) regs ∧ t.M = m ∧ t.UF = sel ∧
      t.IDX.toNat = k * unrollFactor sel ∧ t.BUSY = true ∧ t.DONE = false := by
  obtain ⟨hS, hM, hUF, hIDX, hBUSY, hDONE, -⟩ := h
  rw [decide_eq_true hk] at hBUSY hDONE
  exact ⟨hS, hM, hUF, hIDX, hBUSY, hDONE⟩

/-- As long as steps are left, rounds are left. -/
theorem mul_unrollFactor_lt {sel : BitVec 2} {k : Nat} (hk : k < 64 / unrollFactor sel) :
    k * unrollFactor sel < 64 :=
  calc k * unrollFactor sel
    _ < 64 / unrollFactor sel * unrollFactor sel :=
      Nat.mul_lt_mul_of_pos_right hk (unrollFactor_pos sel)
    _ = 64 := div_unrollFactor_mul sel

/-- Settles O37: k edges after that of acceptance the engine is k steps into the compress, and complete
at the last of them. -/
theorem acceptedCompressCompletes : Obligations.AcceptedCompressCompletes := by
  unfold Obligations.AcceptedCompressCompletes
  intro s v rest U hn hb hv hU hp
  refine ⟨?_, fun k hk => ?_⟩
  · rw [hU]
    exact run_complete_of_compressCommand hn hb hv hp
  · rw [← unrollFactor_eq_two_pow] at hU
    subst hU
    have hlt := mul_unrollFactor_lt hk
    obtain ⟨t, hrun, ht⟩ := run_of_compressCommand hn hb hv hp hlt.le
    exact ⟨t, hrun, ht.running hlt⟩

/-! ## The commands -/

/-- A compress command on the port of an idle engine is accepted, and its effect is the start action
(R132). -/
theorem writeEdge_startCompress_of_idle {s : State} (hb : s.BUSY = false) (sel : BitVec 2) :
    (writeEdge s ctrlAddr fun t => startCompress t sel) =
      { s with UF := sel, IDX := 0, BUSY := true, DONE := false, program := s.program.tail } :=
  writeEdge_of_idle hb ctrlAddr _

/-- Settles O21: the four commands differ in the select of their start action only. -/
theorem compressCommandsStartTheEngine : Obligations.CompressCommandsStartTheEngine := by
  unfold Obligations.CompressCommandsStartTheEngine
  intro s reserved hb
  have accepted := fun sel =>
    congrArg (Host.Outcome.next (φ := Fault) (ρ := Refusal)) (writeEdge_startCompress_of_idle hb sel)
  exact ⟨accepted 0, accepted 1, accepted 2, accepted 3⟩

/-- A command word with START = 0 is NOP (R82). -/
theorem decodeC_of_no_start {v : Word} (hv : fieldStart v = false) :
    decodeC v = .nop (v.extractLsb' 1 31) := by
  rw [decodeC, hv, if_neg Bool.false_ne_true]

/-- NOP on the port of an idle engine is accepted, without effect (R126). -/
theorem exec_nop_of_idle {s : State} (hb : s.BUSY = false) (unused : BitVec 31) :
    exec (.nop unused) s = .next s.nextAction :=
  congrArg Host.Outcome.next (writeEdge_of_idle hb ctrlAddr _)

/-- Settles O22. -/
theorem nopHasNoEffect : Obligations.NopHasNoEffect := by
  unfold Obligations.NopHasNoEffect
  refine ⟨fun v hv => decodeC_of_no_start hv, fun s unused => ⟨fun hb => ?_, fun hb => ?_⟩⟩
  · exact exec_nop_of_idle hb unused
  · exact exec_of_busy hb (by simp)

end Sys2Proof.Machine
end

section
/-! PROOFS. Nothing stops the machine (R150), and engines side by side share no state (R160). -/

namespace Sys2Proof.Machine

/-! ## Every edge answers a next state -/

/-- No instruction ends in a fault or a refusal: each is a read edge or a write edge (R85, R150). -/
theorem exists_exec_next (i : Instr) (s : State) : ∃ t, exec i s = .next t := by
  rcases exec_cases i s with ⟨addr, read⟩ | ⟨addr, effect, write⟩
  · exact ⟨_, read⟩
  · exact ⟨_, write⟩

/-- No edge of any engine does, under reset or not (R150). -/
theorem exists_clockEdge_next (engine : Nat) (s : State) : ∃ t, clockEdge engine s = .next t := by
  rcases clockEdge_cases engine s with ⟨-, port⟩ | ⟨-, reset⟩
  · obtain ⟨t, hport, -⟩ := portEdge_control s.nextLevel
    exact ⟨t, port.trans hport⟩
  · exact ⟨_, reset⟩

/-- A run is as safe as what is left of it after its first edge. -/
theorem SafeRun.of_step {n : Nat} {s t : State} (hstep : step s = .next t) (ht : SafeRun n t) :
    SafeRun (n + 1) s := by
  obtain ⟨u, hrun⟩ := ht
  exact ⟨u, by simp only [run, hstep, hrun]⟩

theorem safeRun (n : Nat) (s : State) : SafeRun n s := by
  induction n generalizing s with
  | zero => exact ⟨s, rfl⟩
  | succ n ih =>
    obtain ⟨t, hstep⟩ := exists_clockEdge_next 0 s
    exact .of_step hstep (ih t)

/-- Settles O8: every instruction is a read or a write edge, and a run is safe edge by edge. -/
theorem nothingStopsTheMachine : Obligations.NothingStopsTheMachine := by
  unfold Obligations.NothingStopsTheMachine
  exact ⟨exists_exec_next, safeRun⟩

/-! ## Several engines -/

/-- Outside reset the number of an engine plays no part in its edge (R160). -/
theorem clockEdge_eq_step {s : State} (engine : Nat) (hr : s.rstLevel = true) :
    clockEdge engine s = step s := by
  rw [step, clockEdge, clockEdge, if_pos hr, if_pos hr]

/-- An edge of engine k modifies the list at place k and nowhere else (R160). -/
theorem stepReplica_eq_modify {k : Nat} {edge : State → State}
    (hedge : ∀ s, clockEdge k s = .next (edge s)) (engines : List State) :
    stepReplica engines k = .next (engines.modify k edge) := by
  rw [List.modify_eq_set_getElem?]
  cases hs : engines[k]? with
  | none => exact stepReplica_of_none hs
  | some s => exact stepReplica_of_edge hs (hedge s)

/-- Settles O47: the edges of two engines modify the list at two different places. -/
theorem enginesAreIndependent : Obligations.EnginesAreIndependent := by
  unfold Obligations.EnginesAreIndependent
  refine ⟨fun k s hr => clockEdge_eq_step k hr, fun engines j k hjk => ?_⟩
  choose edge hedge using exists_clockEdge_next
  have hmodify := fun n => stepReplica_eq_modify (hedge n)
  refine ⟨_, _, _, hmodify k engines, List.getElem?_modify_ne _ _ hjk.symm, fun s hs => ?_,
    List.length_modify _ _ _, hmodify j engines, hmodify j _, ?_⟩
  · exact ⟨edge k s, hedge k s, by rw [List.modify_eq_set_getElem?, hs]; rfl⟩
  · rw [hmodify k, List.modify_modify_ne _ _ _ hjk]

end Sys2Proof.Machine
end

section
/-! PROOFS. An edge without a transaction on the port (R159, R181, R87), and an edge under reset
(R170, R171, R172). -/

namespace Sys2Proof.Machine

/-! ## Nothing presented, and POLL -/

theorem step_of_level {s : State} (hr : s.rstLevel = true) : step s = portEdge s.nextLevel := by
  rw [step, clockEdge, if_pos hr]

/-- A cycle in which the host chose to present nothing is the engine's, and then it is over (R181). -/
theorem step_of_idleCycle {s : State} {rest : List HostAction} (hr : s.rstLevel = true)
    (hp : s.program = .idle :: rest) :
    step s = .next { engineEdge s with rstN := s.rstN.tail, program := rest } := by
  have hedge : portEdge s.nextLevel = .next (engineEdge s.nextLevel).nextAction := by
    simp only [portEdge, State.nextLevel_program, hp]
  rw [step_of_level hr, hedge, engineEdge_nextLevel]
  simp [State.nextAction, State.nextLevel, hp]

/-- A POLL of a busy engine logs nothing and goes on: the edge is the engine's step (R87). -/
theorem step_of_poll_of_busy {s : State} {rest : List HostAction} (hr : s.rstLevel = true)
    (hp : s.program = .poll :: rest) (hb : s.BUSY = true) :
    step s = .next (engineStep s).nextLevel := by
  have hedge : portEdge s.nextLevel = .next (engineEdge s.nextLevel) := by
    simp only [portEdge, State.nextLevel_program, hp, State.nextLevel_BUSY, hb, if_true]
  rw [step_of_level hr, hedge, engineEdge_nextLevel, engineEdge_of_busy hb]

/-- A POLL of an idle engine is a read of STATUS, its last (R87). -/
theorem step_of_poll_of_idle {s : State} {rest : List HostAction} (hr : s.rstLevel = true)
    (hp : s.program = .poll :: rest) (hb : s.BUSY = false) :
    step s = .next { s with rstN := s.rstN.tail, program := rest,
                            readLog := s.readLog ++ [memRead s statusAddr] } := by
  have hedge : portEdge s.nextLevel = exec (.rd statusAddr 0) s.nextLevel := by
    simp only [portEdge, State.nextLevel_program, hp, State.nextLevel_BUSY, hb,
      Bool.false_eq_true, if_false]
  rw [step_of_level hr, hedge, exec_rd_statusAddr, engineEdge_nextLevel, engineEdge_of_idle hb]
  simp [State.logRead, State.nextAction, State.nextLevel, hp]

/-- The level of `rst_n` used up beside an engine step, in the list before the step. -/
theorem engineStep_nextLevel_eq (s : State) :
    (engineStep s).nextLevel = { engineStep s with rstN := s.rstN.tail } := by
  rw [State.nextLevel, engineStep_rstN]

/-- Settles O7: each edge is the engine's, with the host's action ended or not; an idle engine has no
step, and its STATUS ends a POLL. -/
theorem stepWithoutATransaction : Obligations.StepWithoutATransaction := by
  unfold Obligations.StepWithoutATransaction
  intro s hr
  refine ⟨fun hp hb => ?_, fun hp hb => ?_, fun rest hp hb => ?_, fun rest hp hb => ?_,
    fun rest hp hb => ?_, fun rest hp hb => step_of_poll_of_idle hr hp hb⟩
  · rw [step_of_nothing hr hp, engineEdge_of_idle hb, State.nextLevel]
  · rw [step_of_nothing hr hp, engineEdge_of_busy hb, engineStep_nextLevel_eq]
  · rw [step_of_idleCycle hr hp, engineEdge_of_idle hb]
  · rw [step_of_idleCycle hr hp, engineEdge_of_busy hb]
  · rw [step_of_poll_of_busy hr hp hb, engineStep_nextLevel_eq]

/-! ## Reset -/

/-- With `rst_n` = 0 the edge is a reset, whatever the engine and the port do (R153, R170). -/
theorem clockEdge_of_reset {s : State} (engine : Nat) (hr : s.rstLevel = false) :
    clockEdge engine s = .next (resetEdge engine s.nextLevel) := by
  rw [clockEdge, hr, if_neg Bool.false_ne_true]

/-- Under reset the outputs are 0, even of an engine that is busy or done (R170). -/
theorem pins_of_reset {s : State} (hr : s.rstLevel = false) :
    busyPin s = false ∧ donePin s = false ∧ ∀ r, reqReadyPin s r = false := by
  simp [busyPin, donePin, reqReadyPin, hr]

/-- The draw of a reset for S, by the number of the register (R172). -/
theorem drawnS_get (engine k : Nat) (i : Fin 8) :
    (drawnS engine k).get i = Config.resetData engine k i.val := by
  fin_cases i <;> rfl

/-- The draw of a reset for M, by the index of the word (R172). -/
theorem drawnM_get (engine k : Nat) (i : Fin 64) :
    (drawnM engine k).get i = Config.resetData engine k (8 + i.val) :=
  Vector.get_ofFn _ i

/-- A transaction on the port of an idle engine is accepted at its first edge with `rst_n` = 1. -/
theorem exists_clockEdge_of_idle {s : State} {r : Request} {rest : List HostAction} (engine : Nat)
    (hb : s.BUSY = false) (hp : s.program = .present r :: rest) (hr : s.rstLevel = true) :
    ∃ t, clockEdge engine s = .next t ∧ t.program = rest := by
  rw [clockEdge_eq_step engine hr]
  exact exists_step_of_ready hr hp (reqReady_of_idle hb r.we r.addr)

/-- A presented transaction stays on the port through a reset (R171). -/
theorem resetEdge_program_of_present {s : State} {r : Request} {rest : List HostAction}
    (engine : Nat) (hp : s.program = .present r :: rest) :
    (resetEdge engine s).program = .present r :: rest := by
  simp only [resetEdge_program, hp, heldThroughReset]

/-- Settles O45: the edge is a reset, which leaves the engine idle, and so the transaction it held is
let through as soon as `rst_n` is back at 1. -/
theorem resetAbandonsACompress : Obligations.ResetAbandonsACompress := by
  unfold Obligations.ResetAbandonsACompress
  refine ⟨fun _ => rfl, fun engine s levels hlevels => ?_⟩
  have hr : s.rstLevel = false := by rw [State.rstLevel, hlevels, List.headD_cons]
  have htail : s.nextLevel.rstN = levels := by rw [State.nextLevel_rstN, hlevels, List.tail_cons]
  obtain ⟨hbusy, hdone, hready⟩ := pins_of_reset hr
  refine ⟨hbusy, hdone, hready, resetEdge engine s.nextLevel, clockEdge_of_reset engine hr,
    rfl, rfl, rfl, rfl, rfl, rfl, drawnS_get engine s.resets, drawnM_get engine s.resets,
    rfl, rfl, htail, fun r rest hp => ?_⟩
  have hheld := resetEdge_program_of_present (s := s.nextLevel) engine hp
  exact ⟨hheld.trans hp.symm, exists_clockEdge_of_idle engine rfl hheld⟩

end Sys2Proof.Machine
end
